-- ==== Sys2Proof/Word.lean ====
section
/-! DEFINITION. The bit patterns bwc_core's ports carry, and the transaction word (R5, R6, R15, R16, R40).
Bit 0 is the least significant bit of every one of them (R6). -/

namespace Sys2Proof

/-- A 32-bit port value: `a`, `b`, `result` (R5 `XLEN`, R15, R16). -/
abbrev Word := BitVec 32

/-- A 16-bit sequence number (R5 `SEQ_W`, R25). -/
abbrev SeqNum := BitVec 16

/-- The value of the operation-select port `op[3:0]` (R5 `OP_W`, R15). -/
abbrev OpBits := BitVec 4

/-- The value of the `status[1:0]` port (R5 `ST_W`, R16). -/
abbrev StatusBits := BitVec 2

/-- The transaction word `T = {op[3:0], b[31:0], a[31:0]}` (R40). -/
abbrev TWord := BitVec 68

end Sys2Proof
end

