-- ==== Sys2Proof/Syntax.lean ====
section
/-! DEFINITION. The instructions: one constructor per row of spec/opcode_table.json, an instruction being one evaluation (R10, R14).
A constructor carries the operand bits its rule reads (R44) and no ignored bit (R42, R43, R47; log 8). -/

namespace Sys2Proof

/-- The nine operations of R45 and the seven reserved op values of R46. -/
inductive Instr where
  /-- op 0: bit width of the unsigned range [min, max] (R61). -/
  | bwu (min max : Word)
  /-- op 1: bit width of the signed range [min, max] (R62). -/
  | bws (min max : Word)
  /-- op 2: population count (R70). -/
  | popcnt (x : Word)
  /-- op 3: floor of the base-2 logarithm (R71). -/
  | log2 (x : Word)
  /-- op 4: count of leading zeros (R72). -/
  | clz (x : Word)
  /-- op 5: zig-zag encode (R80). -/
  | zzenc (n : Word)
  /-- op 6: zig-zag decode (R81). -/
  | zzdec (u : Word)
  /-- op 7: wraparound-aware greater-than (R91). -/
  | seqgt (s1 s2 : SeqNum)
  /-- op 8: wraparound-aware less-than (R92). -/
  | seqlt (s1 s2 : SeqNum)
  /-- op 9, reserved (R46). -/
  | reserved9
  /-- op A, reserved (R46). -/
  | reservedA
  /-- op B, reserved (R46). -/
  | reservedB
  /-- op C, reserved (R46). -/
  | reservedC
  /-- op D, reserved (R46). -/
  | reservedD
  /-- op E, reserved (R46). -/
  | reservedE
  /-- op F, reserved (R46). -/
  | reservedF
deriving DecidableEq, Repr

end Sys2Proof
end

