-- ==== Sys2Proof/WellFormed.lean ====
section
/-! DEFINITION. The checks on values that come from outside the typed instruction. An `Instr` itself needs none: its operands are bit
vectors of exactly the fields' widths, so an operand that does not fit cannot be built. What can be ill formed is a number offered as
a transaction word (R40), and a pattern offered as a status code (R100); a literal offered for an operand field (R50) is checked in
Machine/Assembler.lean. -/

namespace Sys2Proof

/-- "every transaction word is 68 bits long" (R40). -/
def isTransactionWord (w : Nat) : Bool := decide (w < 2 ^ 68)

/-- `2'b11` is never driven (R100, U5). -/
def isStatusCode (st : StatusBits) : Bool := decide (st ≠ 0b11#2)

end Sys2Proof
end

