-- ==== Sys2Proof/Decode.lean ====
section
/-! DEFINITION. The decoder (R41 to R49), the encoder written from the same tables, and the opcode table's rows. -/

namespace Sys2Proof

/-- Field `op`, `T[67:64]` (R41). -/
def opField (t : TWord) : OpBits := t.extractLsb' 64 4

/-- Field `b`, `T[63:32]` (R43). -/
def bField (t : TWord) : Word := t.extractLsb' 32 32

/-- Field `a`, `T[31:0]` (R42). -/
def aField (t : TWord) : Word := t.extractLsb' 0 32

/-- `T = {op, b, a}`, `op` in the most significant position (R6, R40). -/
def pack (op : OpBits) (b a : Word) : TWord := op ++ b ++ a

/-- `v[15:0]`, what SEQGT and SEQLT read of an operand (R42, R43, R44). -/
def low16 (v : Word) : SeqNum := v.extractLsb' 0 16

/-- A sequence number in an operand field; the ignored upper bits are encoded as 0 (R91; log 8). -/
def seqOperand (s : SeqNum) : Word := s.setWidth 32

/-- The instruction of a transaction word: total, and the choice reads `T[67:64]` only (R49). -/
def decode (t : TWord) : Instr :=
  match (opField t).toNat with
  | 0x0 => .bwu (aField t) (bField t)
  | 0x1 => .bws (aField t) (bField t)
  | 0x2 => .popcnt (aField t)
  | 0x3 => .log2 (aField t)
  | 0x4 => .clz (aField t)
  | 0x5 => .zzenc (aField t)
  | 0x6 => .zzdec (aField t)
  | 0x7 => .seqgt (low16 (aField t)) (low16 (bField t))
  | 0x8 => .seqlt (low16 (aField t)) (low16 (bField t))
  | 0x9 => .reserved9
  | 0xA => .reservedA
  | 0xB => .reservedB
  | 0xC => .reservedC
  | 0xD => .reservedD
  | 0xE => .reservedE
  | _ => .reservedF

/-- Why a number is not the encoding of an evaluation. -/
inductive DecodeError where
  /-- The number has a bit above bit 67, so it is no transaction word (R40, R48). Safe: nothing is run. -/
  | longerThanTransactionWord
deriving DecidableEq, Repr

/-- Decoding any number of bits: every transaction word decodes (R49), anything longer is rejected by name (log 15). -/
def decodeNat (w : Nat) : Except DecodeError Instr :=
  if isTransactionWord w then .ok (decode (BitVec.ofNat 68 w)) else .error .longerThanTransactionWord

/-- The instruction read from the `nbits` low bits of `w`, numbered as spec/opcode_table.json numbers them (R40: `T[67:0]`). -/
def decodeTableWord (nbits w : Nat) : Option Instr :=
  match decodeNat (w % 2 ^ nbits) with
  | .ok i => some i
  | .error _ => none

/-- The transaction word of an instruction (R40, R45, and each operation's "Encoding"). Ignored bits are written 0: R50 gives that for
an omitted operand 2, and the rest is the model's (log 8). -/
def encode : Instr → TWord
  | .bwu min max => pack 0x0#4 max min
  | .bws min max => pack 0x1#4 max min
  | .popcnt x => pack 0x2#4 0#32 x
  | .log2 x => pack 0x3#4 0#32 x
  | .clz x => pack 0x4#4 0#32 x
  | .zzenc n => pack 0x5#4 0#32 n
  | .zzdec u => pack 0x6#4 0#32 u
  | .seqgt s1 s2 => pack 0x7#4 (seqOperand s2) (seqOperand s1)
  | .seqlt s1 s2 => pack 0x8#4 (seqOperand s2) (seqOperand s1)
  | .reserved9 => pack 0x9#4 0#32 0#32
  | .reservedA => pack 0xA#4 0#32 0#32
  | .reservedB => pack 0xB#4 0#32 0#32
  | .reservedC => pack 0xC#4 0#32 0#32
  | .reservedD => pack 0xD#4 0#32 0#32
  | .reservedE => pack 0xE#4 0#32 0#32
  | .reservedF => pack 0xF#4 0#32 0#32

/-- A row of spec/opcode_table.json. -/
structure OpRow where
  /-- The row's mnemonic. -/
  mnemonic : String
  /-- The row's "match". -/
  pattern : TWord
  /-- The row's "mask". -/
  mask : TWord
  /-- The bits of T the row reads: those its "encoding" does not spell `x`. -/
  reads : TWord
deriving DecidableEq, Repr

/-- spec/opcode_table.json, row by row: the nine operations (R45). -/
def definedRows : List OpRow :=
  [ ⟨"BWU",    0x00000000000000000#68, 0xF0000000000000000#68, 0xFFFFFFFFFFFFFFFFF#68⟩,
    ⟨"BWS",    0x10000000000000000#68, 0xF0000000000000000#68, 0xFFFFFFFFFFFFFFFFF#68⟩,
    ⟨"POPCNT", 0x20000000000000000#68, 0xF0000000000000000#68, 0xF00000000FFFFFFFF#68⟩,
    ⟨"LOG2",   0x30000000000000000#68, 0xF0000000000000000#68, 0xF00000000FFFFFFFF#68⟩,
    ⟨"CLZ",    0x40000000000000000#68, 0xF0000000000000000#68, 0xF00000000FFFFFFFF#68⟩,
    ⟨"ZZENC",  0x50000000000000000#68, 0xF0000000000000000#68, 0xF00000000FFFFFFFF#68⟩,
    ⟨"ZZDEC",  0x60000000000000000#68, 0xF0000000000000000#68, 0xF00000000FFFFFFFF#68⟩,
    ⟨"SEQGT",  0x70000000000000000#68, 0xF0000000000000000#68, 0xF0000FFFF0000FFFF#68⟩,
    ⟨"SEQLT",  0x80000000000000000#68, 0xF0000000000000000#68, 0xF0000FFFF0000FFFF#68⟩ ]

/-- spec/opcode_table.json, row by row: the seven reserved op values (R46). -/
def reservedRows : List OpRow :=
  [ ⟨"(reserved)", 0x90000000000000000#68, 0xF0000000000000000#68, 0xF0000000000000000#68⟩,
    ⟨"(reserved)", 0xA0000000000000000#68, 0xF0000000000000000#68, 0xF0000000000000000#68⟩,
    ⟨"(reserved)", 0xB0000000000000000#68, 0xF0000000000000000#68, 0xF0000000000000000#68⟩,
    ⟨"(reserved)", 0xC0000000000000000#68, 0xF0000000000000000#68, 0xF0000000000000000#68⟩,
    ⟨"(reserved)", 0xD0000000000000000#68, 0xF0000000000000000#68, 0xF0000000000000000#68⟩,
    ⟨"(reserved)", 0xE0000000000000000#68, 0xF0000000000000000#68, 0xF0000000000000000#68⟩,
    ⟨"(reserved)", 0xF0000000000000000#68, 0xF0000000000000000#68, 0xF0000000000000000#68⟩ ]

/-- The whole opcode table (R45, R46). -/
def opTable : List OpRow := definedRows ++ reservedRows

/-- A transaction word falls under a row (R45: "Match and mask are on the 68-bit T"). -/
def OpRow.covers (r : OpRow) (t : TWord) : Bool := decide (t &&& r.mask = r.pattern)

/-- The mnemonic of the row an instruction stands for. -/
def Instr.mnemonic : Instr → String
  | .bwu _ _ => "BWU"
  | .bws _ _ => "BWS"
  | .popcnt _ => "POPCNT"
  | .log2 _ => "LOG2"
  | .clz _ => "CLZ"
  | .zzenc _ => "ZZENC"
  | .zzdec _ => "ZZDEC"
  | .seqgt _ _ => "SEQGT"
  | .seqlt _ _ => "SEQLT"
  | .reserved9 | .reservedA | .reservedB | .reservedC | .reservedD | .reservedE | .reservedF => "(reserved)"

/-- The op value of an instruction's row (R45, R46). -/
def Instr.opcode : Instr → OpBits
  | .bwu _ _ => 0x0#4
  | .bws _ _ => 0x1#4
  | .popcnt _ => 0x2#4
  | .log2 _ => 0x3#4
  | .clz _ => 0x4#4
  | .zzenc _ => 0x5#4
  | .zzdec _ => 0x6#4
  | .seqgt _ _ => 0x7#4
  | .seqlt _ _ => 0x8#4
  | .reserved9 => 0x9#4
  | .reservedA => 0xA#4
  | .reservedB => 0xB#4
  | .reservedC => 0xC#4
  | .reservedD => 0xD#4
  | .reservedE => 0xE#4
  | .reservedF => 0xF#4

/-- Whether the instruction stands for a reserved op value (R46). -/
def Instr.isReserved : Instr → Bool
  | .bwu _ _ | .bws _ _ | .popcnt _ | .log2 _ | .clz _ | .zzenc _ | .zzdec _ | .seqgt _ _ | .seqlt _ _ => false
  | .reserved9 | .reservedA | .reservedB | .reservedC | .reservedD | .reservedE | .reservedF => true

/-- The bits of T that an evaluation with this op reads, `op` itself among them (R42, R43, R46). -/
def readMask (op : OpBits) : TWord :=
  match op.toNat with
  | 0x0 | 0x1 => 0xF_FFFFFFFF_FFFFFFFF#68
  | 0x2 | 0x3 | 0x4 | 0x5 | 0x6 => 0xF_00000000_FFFFFFFF#68
  | 0x7 | 0x8 => 0xF_0000FFFF_0000FFFF#68
  | _ => 0xF_00000000_00000000#68

end Sys2Proof
end

