-- ==== Sys2Proof/Config.lean ====
section
/-! DEFINITION. What the spec leaves open: the free values of `UNSPEC` (R9) and the two OPEN
parameters (R31, R125). The opaque constants have no body, so no proof can learn their values.
The fixed parameters of R5 are the widths of Word.lean and `seqHalf` of Machine/Operands.lean. -/

namespace Sys2Proof.Config

/-- The draws for `UNSPEC` (R9, R10): the `n`-th evaluation that leaves `result` unspecified puts `freeResult n` there.
DESIGN CHOICE (log 3): a draw is indexed by a counter in State, so two evaluations of one run never share one (R126). -/
opaque freeResult : Nat → Word

/-- `T_PD`, the settling time, OPEN and finite (R125, U8), in a unit the spec does not name (log 10).
No definition of the machine reads it: "No functional rule of this spec depends on `T_PD`". -/
opaque tPd : Nat

/-- `BWC_BASE`, the bus address a platform may give the block, OPEN (R31, U10; log 11).
The block has no address space, so no definition of the machine reads it. -/
opaque bwcBase : Nat

end Sys2Proof.Config
end

