-- ==== Sys2Proof/Machine/State.lean ====
section
/-! DEFINITION. What the machine holds. bwc_core stores nothing (R11 to R14, R19, R30, R120): its architectural state is its ports
(R15, R16), so those are State's fields. `draws` is the model's own. -/

namespace Sys2Proof.Machine

/-- The ports of bwc_core at one moment, and the model's count of draws. -/
structure State where
  /-- Input port `op[3:0]` (R15). -/
  op : OpBits
  /-- Input port `a[31:0]` (R15). -/
  a : Word
  /-- Input port `b[31:0]` (R15). -/
  b : Word
  /-- Output port `result[31:0]` (R16, R17). -/
  result : Word
  /-- Output port `status[1:0]` (R16, R18). -/
  status : StatusBits
  /-- The model's own field (log 3): how many values of `UNSPEC` have been drawn (R9, R10). -/
  draws : Nat
deriving DecidableEq, Repr

/-- Nothing stops bwc_core with a fault: it has no traps (R104, R107), and a violated precondition or a reserved op is an ordinary
evaluation that says so on `status` (R100 to R102). So there is no constructor (log 9). -/
inductive Fault where
deriving DecidableEq, Repr

/-- Why an instruction has no meaning. No meaning of this model refuses (log 9). -/
inductive Refusal where
  /-- The host's name for an instruction whose arm has no meaning yet. Raised by no arm. Safe. -/
  | notModelled (mnemonic : String)
deriving DecidableEq, Repr

/-- The value of the two output ports, which every evaluation drives (R10, R16). -/
structure Outputs where
  /-- What `result` is driven with. -/
  result : Word
  /-- What `status` is driven with. -/
  status : StatusBits
deriving DecidableEq, Repr

/-- The ports before the driver has driven anything. The block has no reset (R27, R120), so the spec gives none of these values.
DESIGN CHOICE (log 2, log 3): the inputs lie at 0, and the outputs at what the rules give for those inputs (`BWU 0, 0` gives OK/0). -/
def State.reset : State where
  op := 0#4
  a := 0#32
  b := 0#32
  result := 0#32
  status := 0b00#2
  draws := 0

end Sys2Proof.Machine
end

