-- ==== Sys2Proof/Machine/Operands.lean ====
section
/-! DEFINITION. How a port value is read and how a narrow value is put on the 32-bit result (R7, R17, R44), and the bit searches the
operations share (R7, R70 to R72). -/

namespace Sys2Proof.Machine

/-- The unsigned value of a pattern, in [0, 2^32-1] (R7). -/
def u32 (v : Word) : Nat := v.toNat

/-- The two's-complement value: `s32(v) = u32(v) - 2^32 * v[31]` (R7; log 12). -/
def s32 (v : Word) : Int := (u32 v : Int) - 2 ^ 32 * ((v.getLsbD 31).toNat : Int)

/-- `x -_32 y`: the difference mod 2^32 (R7). -/
def sub32 (x y : Word) : Word := x - y

/-- A count as a zero-extended 32-bit result (R17). -/
def countResult (n : Nat) : Word := BitVec.ofNat 32 n

/-- A boolean as 1 or 0 in `result[0]` (R17). -/
def boolResult (b : Bool) : Word := if b then 1#32 else 0#32

/-- The largest `k ≤ bound` with `2^k ≤ d`, for `d ≥ 1`. -/
def floorLog2Upto (d : Nat) : Nat → Nat
  | 0 => 0
  | k + 1 => if 2 ^ (k + 1) ≤ d then k + 1 else floorLog2Upto d k

/-- `floor(log2(d))`, "the largest `k` with `2^k ≤ d`" (R7), for a 32-bit `d ≥ 1`, where `k ≤ 31` (R60). No rule asks for it at 0. -/
def floorLog2 (d : Nat) : Nat := floorLog2Upto d 31

/-- The largest `i` below `n` with `x[i] = 1`; 0 where there is none. -/
def highestSetBitBelow (x : Word) : Nat → Nat
  | 0 => 0
  | i + 1 => if x.getLsbD i then i else highestSetBitBelow x i

/-- "the largest i in 0..31 with a[i] = 1" (R71, R72). Both rules ask for it only where `x ≠ 0`. -/
def highestSetBit (x : Word) : Nat := highestSetBitBelow x 32

/-- "sum over i in 0..31 of x[i]" (R70). -/
def onesCount (x : Word) : Nat := ((List.range 32).map fun i => (x.getLsbD i).toNat).sum

/-- The leading-zero count: 32 at 0, else 31 less the highest set bit's index (R72). -/
def leadingZeros (x : Word) : Nat := if x = 0#32 then 32 else 31 - highestSetBit x

/-- `bitwidth32(d)` (R60). -/
def bitwidth32 (d : Word) : Nat := if u32 d = 0 then 0 else floorLog2 (u32 d) + 1

/-- `(n << 1) ^ (n >>s 31)` on 32-bit patterns; bit 31 is discarded by the left shift (R80). -/
def zigzag (n : Word) : Word := (n <<< 1) ^^^ n.sshiftRight 31

/-- `(u >>u 1) ^ mask`, the mask all ones when `u[0] = 1` and 0 otherwise (R81). -/
def unzigzag (u : Word) : Word := (u >>> 1) ^^^ (if u.getLsbD 0 then 0xFFFFFFFF#32 else 0x0#32)

/-- The half-domain boundary of the sequence comparator (R5 `SEQ_HALF`). -/
def seqHalf : Nat := 32768

/-- `seq_gt(s1, s2)`: unsigned comparisons, each difference taken where it is not negative (R90; C1 and C2 settle the boundary). -/
def seqGt (s1 s2 : SeqNum) : Bool :=
  (decide (s1.toNat > s2.toNat) && decide (s1.toNat - s2.toNat ≤ seqHalf)) ||
    (decide (s1.toNat < s2.toNat) && decide (s2.toNat - s1.toNat > seqHalf))

end Sys2Proof.Machine
end

