-- ==== Sys2Proof/Machine/Flags.lean ====
section
/-! DEFINITION. The status codes, the block's only flag-like signal (R18, R100), and the exhaustive list of preconditions (R101). There
are no condition codes (R18). -/

namespace Sys2Proof.Machine

/-- The three codes that are driven (R100). -/
inductive Status where
  /-- No condition. -/
  | ok
  /-- A programmer-error precondition was violated (R101). -/
  | precond
  /-- `op` is reserved (R102). -/
  | illegal
deriving DecidableEq, Repr

/-- `code(E)`: a status as `status[1:0]` carries it (R100). -/
def statusCode : Status → StatusBits
  | .ok => 0b00#2
  | .precond => 0b01#2
  | .illegal => 0b10#2

/-- The status a consumer reads from `status[1:0]`; it must refuse `2'b11` (R100, D13, U5). -/
def statusOfCode (st : StatusBits) : Option Status :=
  if isStatusCode st then some (if st = 0b00#2 then .ok else if st = 0b01#2 then .precond else .illegal) else none

/-- BWU's precondition is violated: `u32(min) > u32(max)` (R61, R101). -/
def bwuRangeError (min max : Word) : Bool := decide (u32 min > u32 max)

/-- BWS's precondition is violated: `s32(min) > s32(max)` (R62, R101). -/
def bwsRangeError (min max : Word) : Bool := decide (s32 min > s32 max)

/-- LOG2's precondition is violated: `u32(x) = 0` (R71, R101). -/
def log2Error (x : Word) : Bool := decide (u32 x = 0)

end Sys2Proof.Machine
end

