-- ==== Sys2Proof/Machine/Ops.lean ====
section
/-! DEFINITION. The operations on ports that every evaluation shares: driving the inputs, completing OK, reporting a condition (this
hardware's whole exception mechanism, R9 and R104), and driving the outputs. There is no memory, register or program counter to operate
on (R11, R14, R30), and no return from an exception: "Nothing needs restoring" (R105). -/

namespace Sys2Proof.Machine

/-- The outputs of an evaluation that completes: `result <- v`, `status <- OK` (R8, R17). -/
def ok (v : Word) : Outputs := ⟨v, statusCode .ok⟩

/-- `raise E()`: `status <- code(E); result <- UNSPEC`, the draw standing for `UNSPEC` (R9). It saves nothing, changes no mode and
redirects nothing (R9, R104). -/
def raise (e : Status) (draw : Word) : Outputs := ⟨draw, statusCode e⟩

/-- The driver applies an input vector (R14, R15). The outputs are not yet those of the new inputs (R123; log 5). -/
def State.driveInputs (s : State) (op : OpBits) (b a : Word) : State := { s with op := op, b := b, a := a }

/-- The driver applies the input vector that a transaction word names (R40). -/
def State.driveWord (s : State) (t : TWord) : State := s.driveInputs (opField t) (bField t) (aField t)

/-- The block drives its outputs. A draw has been read exactly when the status is not OK (R10), and is then used up (R126; log 3). -/
def State.driveOutputs (s : State) (o : Outputs) : State :=
  { s with
    result := o.result
    status := o.status
    draws := if o.status = statusCode .ok then s.draws else s.draws + 1 }

/-- The output ports as one value (R16). -/
def State.outputs (s : State) : Outputs := ⟨s.result, s.status⟩

/-- The transaction word on the input ports, `{op, b, a}` (R40). -/
def State.portWord (s : State) : TWord := pack s.op s.b s.a

/-- One evaluation (R10): outputs that are a function of the draw, driven onto the ports. It always completes (R100, R104). -/
def evaluate (f : Word → Outputs) (s : State) : Host.Outcome State Fault Refusal :=
  .next (s.driveOutputs (f (Config.freeResult s.draws)))

/-- What the block evaluates next: the instruction that the present inputs name (R14, R38, R49). -/
def fetch (s : State) : Instr := decode s.portWord

end Sys2Proof.Machine
end

