-- ==== Sys2Proof/Machine/BitWidth.lean ====
section
/-! DEFINITION. BWU and BWS, spec/40_bit_width.md. -/

namespace Sys2Proof.Machine

/-- BWU (R61). -/
def bwuOutputs (min max draw : Word) : Outputs :=
  if bwuRangeError min max then raise .precond draw else ok (countResult (bitwidth32 (sub32 max min)))

/-- BWS (R62): only the range check is signed; the width is that of the 32-bit difference. -/
def bwsOutputs (min max draw : Word) : Outputs :=
  if bwsRangeError min max then raise .precond draw else ok (countResult (bitwidth32 (sub32 max min)))

/-- The evaluation of BWU (R61). -/
def execBwu (min max : Word) (s : State) : Host.Outcome State Fault Refusal := evaluate (bwuOutputs min max) s

/-- The evaluation of BWS (R62). -/
def execBws (min max : Word) (s : State) : Host.Outcome State Fault Refusal := evaluate (bwsOutputs min max) s

end Sys2Proof.Machine
end

