-- ==== Sys2Proof/Machine/PopcountLz.lean ====
section
/-! DEFINITION. POPCNT, LOG2 and CLZ, spec/41_popcount_lz.md. -/

namespace Sys2Proof.Machine

/-- POPCNT (R70). -/
def popcntOutputs (x _draw : Word) : Outputs := ok (countResult (onesCount x))

/-- LOG2 (R71). -/
def log2Outputs (x draw : Word) : Outputs :=
  if log2Error x then raise .precond draw else ok (countResult (highestSetBit x))

/-- CLZ (R72). -/
def clzOutputs (x _draw : Word) : Outputs := ok (countResult (leadingZeros x))

/-- The evaluation of POPCNT (R70). -/
def execPopcnt (x : Word) (s : State) : Host.Outcome State Fault Refusal := evaluate (popcntOutputs x) s

/-- The evaluation of LOG2 (R71). -/
def execLog2 (x : Word) (s : State) : Host.Outcome State Fault Refusal := evaluate (log2Outputs x) s

/-- The evaluation of CLZ (R72). -/
def execClz (x : Word) (s : State) : Host.Outcome State Fault Refusal := evaluate (clzOutputs x) s

end Sys2Proof.Machine
end

