-- ==== Sys2Proof/Machine/Reserved.lean ====
section
/-! DEFINITION. The seven reserved op values, R46 and R102: each evaluation reports ILLEGAL and leaves `result` unspecified, whatever `a`
and `b` hold (log 7). -/

namespace Sys2Proof.Machine

/-- `raise ILLEGAL()` (R46). -/
def illegalOutputs (draw : Word) : Outputs := raise .illegal draw

/-- The evaluation of reserved op `4'h9` (R46). -/
def execReserved9 (s : State) : Host.Outcome State Fault Refusal := evaluate illegalOutputs s

/-- The evaluation of reserved op `4'hA` (R46). -/
def execReservedA (s : State) : Host.Outcome State Fault Refusal := evaluate illegalOutputs s

/-- The evaluation of reserved op `4'hB` (R46). -/
def execReservedB (s : State) : Host.Outcome State Fault Refusal := evaluate illegalOutputs s

/-- The evaluation of reserved op `4'hC` (R46). -/
def execReservedC (s : State) : Host.Outcome State Fault Refusal := evaluate illegalOutputs s

/-- The evaluation of reserved op `4'hD` (R46). -/
def execReservedD (s : State) : Host.Outcome State Fault Refusal := evaluate illegalOutputs s

/-- The evaluation of reserved op `4'hE` (R46). -/
def execReservedE (s : State) : Host.Outcome State Fault Refusal := evaluate illegalOutputs s

/-- The evaluation of reserved op `4'hF` (R46). -/
def execReservedF (s : State) : Host.Outcome State Fault Refusal := evaluate illegalOutputs s

end Sys2Proof.Machine
end

