-- ==== Sys2Proof/Machine/SeqCompare.lean ====
section
/-! DEFINITION. SEQGT and SEQLT, spec/43_seq_compare.md. Values that break the half-domain invariant are compared like any others (R95). -/

namespace Sys2Proof.Machine

/-- SEQGT (R91). -/
def seqgtOutputs (s1 s2 : SeqNum) (_draw : Word) : Outputs := ok (boolResult (seqGt s1 s2))

/-- SEQLT (R92). -/
def seqltOutputs (s1 s2 : SeqNum) (_draw : Word) : Outputs := ok (boolResult (seqGt s2 s1))

/-- The evaluation of SEQGT (R91). -/
def execSeqgt (s1 s2 : SeqNum) (s : State) : Host.Outcome State Fault Refusal := evaluate (seqgtOutputs s1 s2) s

/-- The evaluation of SEQLT (R92). -/
def execSeqlt (s1 s2 : SeqNum) (s : State) : Host.Outcome State Fault Refusal := evaluate (seqltOutputs s1 s2) s

end Sys2Proof.Machine
end

