-- ==== Sys2Proof/Machine/ZigZag.lean ====
section
/-! DEFINITION. ZZENC and ZZDEC, spec/42_zigzag.md. -/

namespace Sys2Proof.Machine

/-- ZZENC (R80). -/
def zzencOutputs (n _draw : Word) : Outputs := ok (zigzag n)

/-- ZZDEC (R81). -/
def zzdecOutputs (u _draw : Word) : Outputs := ok (unzigzag u)

/-- The evaluation of ZZENC (R80). -/
def execZzenc (n : Word) (s : State) : Host.Outcome State Fault Refusal := evaluate (zzencOutputs n) s

/-- The evaluation of ZZDEC (R81). -/
def execZzdec (u : Word) (s : State) : Host.Outcome State Fault Refusal := evaluate (zzdecOutputs u) s

end Sys2Proof.Machine
end

