-- ==== Sys2Proof/Machine/Dispatch.lean ====
section
/-! DEFINITION. The meaning of every instruction, one arm per row of spec/opcode_table.json (R45, R46). -/

namespace Sys2Proof.Machine

/-- One evaluation of the instruction (R10, R14). -/
def exec (i : Instr) (s : State) : Host.Outcome State Fault Refusal :=
  match i with
  | .bwu min max => Sys2Proof.Machine.execBwu min max s
  | .bws min max => Sys2Proof.Machine.execBws min max s
  | .popcnt x => Sys2Proof.Machine.execPopcnt x s
  | .log2 x => Sys2Proof.Machine.execLog2 x s
  | .clz x => Sys2Proof.Machine.execClz x s
  | .zzenc n => Sys2Proof.Machine.execZzenc n s
  | .zzdec u => Sys2Proof.Machine.execZzdec u s
  | .seqgt s1 s2 => Sys2Proof.Machine.execSeqgt s1 s2 s
  | .seqlt s1 s2 => Sys2Proof.Machine.execSeqlt s1 s2 s
  | .reserved9 => Sys2Proof.Machine.execReserved9 s
  | .reservedA => Sys2Proof.Machine.execReservedA s
  | .reservedB => Sys2Proof.Machine.execReservedB s
  | .reservedC => Sys2Proof.Machine.execReservedC s
  | .reservedD => Sys2Proof.Machine.execReservedD s
  | .reservedE => Sys2Proof.Machine.execReservedE s
  | .reservedF => Sys2Proof.Machine.execReservedF s

end Sys2Proof.Machine
end

