-- ==== Sys2Proof/Machine/Step.lean ====
section
/-! DEFINITION. One step: the evaluation of the inputs now on the ports, from settled inputs to settled outputs (R10, R123; log 4). There is
no program counter to move (R14). -/

namespace Sys2Proof.Machine

/-- One evaluation of the present inputs (R14, R20). -/
def step (s : State) : Host.Outcome State Fault Refusal := exec (fetch s) s

/-- The driver applies the transaction word `w` to the input ports, so that the next step evaluates it (R14, R40; log 6). -/
def State.withFetchWord (s : State) (nbits w : Nat) : State := s.driveWord (BitVec.ofNat 68 (w % 2 ^ nbits))

end Sys2Proof.Machine
end

