-- ==== Sys2Proof/Machine/Assembler.lean ====
section
/-! DEFINITION. The spec's textual form of an evaluation (R50) and the transaction word it stands for. It has no part in a step. What
R50 leaves open of the lexical grammar is in log 13. -/

namespace Sys2Proof.Machine

/-- One assembled line's content (R50; `.word` as spec/95_test_vectors.md P3 writes it). -/
inductive AsmStmt where
  /-- `MNEMONIC operand1[, operand2]`, operands as the integers their literals stand for. -/
  | evaluation (mnemonic : String) (operand1 : Int) (operand2 : Option Int)
  /-- `.word T`: a raw transaction word. -/
  | word (t : Nat)
deriving DecidableEq, Repr

/-- Why a line does not assemble. -/
inductive AsmError where
  /-- No operation of R45 has this mnemonic; there are no pseudo-instructions (R51). -/
  | unknownMnemonic
  /-- A literal does not fit its field (R50). -/
  | operandDoesNotFit
  /-- An operand 2 for an operation that has none (R44). -/
  | noSecondOperand
  /-- The text is not of the form R50 gives. -/
  | notALine
deriving DecidableEq, Repr

/-- The op value of a mnemonic of R45; the reserved rows have none that can be written (R50). -/
def opcodeOf (m : String) : Option OpBits := (definedRows.find? fun r => r.mnemonic == m).map fun r => opField r.pattern

/-- Whether R44 gives the operation an operand 2. -/
def hasOperand2 (op : OpBits) : Bool := decide (op = 0x0#4 ∨ op = 0x1#4 ∨ op = 0x7#4 ∨ op = 0x8#4)

/-- "a literal must fit its field", and a negative one "stands for its 32-bit two's-complement pattern" (R50). The fields are
`T[31:0]` and `T[63:32]` (R40), 32 bits each (log 13). -/
def literalFits (v : Int) : Bool := decide (-(2 ^ 31) ≤ v) && decide (v < 2 ^ 32)

/-- A literal as the pattern of its 32-bit field, a negative one in two's complement (R50). -/
def operandPattern (v : Int) : Option Word := if literalFits v then some (BitVec.ofInt 32 v) else none

/-- The transaction word of a statement. "An omitted operand 2 assembles as `b = 0`" (R50), and no mnemonic is rewritten (R51). -/
def assemble : AsmStmt → Except AsmError TWord
  | .word t => if isTransactionWord t then .ok (BitVec.ofNat 68 t) else .error .operandDoesNotFit
  | .evaluation m x y? =>
    match opcodeOf m with
    | none => .error .unknownMnemonic
    | some op =>
      match operandPattern x, y? with
      | none, _ => .error .operandDoesNotFit
      | some a, none => .ok (pack op 0#32 a)
      | some a, some y =>
        if hasOperand2 op then
          match operandPattern y with
          | none => .error .operandDoesNotFit
          | some b => .ok (pack op b a)
        else .error .noSecondOperand

/-- A space or a tab. -/
def isBlank (c : Char) : Bool := c == ' ' || c == '\t'

/-- Text without the blanks at its ends. -/
def trimBlanks (l : List Char) : List Char := ((l.dropWhile isBlank).reverse.dropWhile isBlank).reverse

/-- The value of a digit in a base up to 16. -/
def digitValue (base : Nat) (c : Char) : Option Nat :=
  let n := c.toNat
  let d? :=
    if '0'.toNat ≤ n ∧ n ≤ '9'.toNat then some (n - '0'.toNat)
    else if 'A'.toNat ≤ n ∧ n ≤ 'F'.toNat then some (n - 'A'.toNat + 10)
    else if 'a'.toNat ≤ n ∧ n ≤ 'f'.toNat then some (n - 'a'.toNat + 10)
    else none
  match d? with
  | some d => if d < base then some d else none
  | none => none

/-- The value of the digits after `acc`. -/
def digitsFrom (base : Nat) : Nat → List Char → Option Nat
  | acc, [] => some acc
  | acc, c :: cs =>
    match digitValue base c with
    | some d => digitsFrom base (acc * base + d) cs
    | none => none

/-- The value of one digit or more. -/
def numeral (base : Nat) (l : List Char) : Option Nat := if l.isEmpty then none else digitsFrom base 0 l

/-- A literal: `0x` and hexadecimal digits, whose underscores only group (R6), or decimal, optionally with `-` (R50). -/
def literal : List Char → Option Int
  | '0' :: 'x' :: hex => (numeral 16 (hex.filter fun c => c != '_')).map fun n => (n : Int)
  | '-' :: dec => (numeral 10 dec).map fun n => -(n : Int)
  | dec => (numeral 10 dec).map fun n => (n : Int)

/-- Text cut at every `sep`; always at least one piece. -/
def cutAt (sep : Char) : List Char → List (List Char)
  | [] => [[]]
  | c :: cs =>
    if c == sep then [] :: cutAt sep cs
    else
      match cutAt sep cs with
      | [] => [[c]]
      | piece :: rest => (c :: piece) :: rest

/-- A label's name: letters, digits and underscores, the first no digit. -/
def isLabelName : List Char → Bool
  | [] => false
  | c :: cs => (c.isAlpha || c == '_') && cs.all fun d => d.isAlphanum || d == '_'

/-- The statement text of a line: less `; comment`, and less a label `name:` before it (R50). -/
def statementText (line : List Char) : Option (List Char) :=
  match cutAt ':' (trimBlanks (line.takeWhile fun c => c != ';')) with
  | [text] => some text
  | [label, text] => if isLabelName (trimBlanks label) then some (trimBlanks text) else none
  | _ => none

/-- The statement a line holds; none where it holds only blanks, a label or a comment. -/
def parseLine (line : List Char) : Except AsmError (Option AsmStmt) :=
  match statementText line with
  | none => .error .notALine
  | some [] => .ok none
  | some text =>
    let name := String.ofList (text.takeWhile fun c => !isBlank c)
    let operands := (cutAt ',' (text.dropWhile fun c => !isBlank c)).map fun o => literal (trimBlanks o)
    match name == ".word", operands with
    | true, [some (.ofNat t)] => .ok (some (.word t))
    | false, [some x] => .ok (some (.evaluation name x none))
    | false, [some x, some y] => .ok (some (.evaluation name x (some y)))
    | _, _ => .error .notALine

/-- The transaction word of a line of text (R50). -/
def assembleLine (line : List Char) : Except AsmError (Option TWord) :=
  match parseLine line with
  | .error e => .error e
  | .ok none => .ok none
  | .ok (some stmt) =>
    match assemble stmt with
    | .error e => .error e
    | .ok t => .ok (some t)

end Sys2Proof.Machine
end

