-- ==== Sys2Proof/Machine/Driver.lean ====
section
/-! DEFINITION. The other agent: what a driver does with the ports (R14, R36, R122), and several copies of the block (R110). The block
itself is Step.lean; nothing here adds to it. -/

namespace Sys2Proof.Machine

/-- What a driver may take from the outputs: it must "read `status` before trusting `result`" (R122, R9). -/
inductive Reading where
  /-- status OK, with the value of `result`. -/
  | value (v : Word)
  /-- status PRECOND; `result` tells nothing. -/
  | precond
  /-- status ILLEGAL; `result` tells nothing. -/
  | illegal
  /-- `2'b11`: the consumer refuses, since it "has left this spec" (D13, U5). -/
  | leftTheSpec
deriving DecidableEq, Repr

/-- The driver reads settled outputs (R122). -/
def State.reading (s : State) : Reading :=
  match statusOfCode s.status with
  | some .ok => .value s.result
  | some .precond => .precond
  | some .illegal => .illegal
  | none => .leftTheSpec

/-- The driver applies a transaction word and lets the block settle (R14, R123). -/
def applyWord (t : TWord) (s : State) : Host.Outcome State Fault Refusal := step (s.driveWord t)

/-- The driver applies transaction words one after another (R36), reading nothing between. -/
def applyWords : List TWord → State → Host.Outcome State Fault Refusal
  | [], s => .next s
  | t :: ts, s =>
    match applyWord t s with
    | .next s' => applyWords ts s'
    | .fault r => .fault r
    | .refused r => .refused r

/-- Evaluation `t` on copy number `k` of several independent copies of the block, which "share no state" (R110; log 16). -/
def applyAt (k : Nat) (t : TWord) (copies : List State) : List State :=
  match copies[k]? with
  | none => copies
  | some s =>
    match applyWord t s with
    | .next s' => copies.set k s'
    | .fault _ => copies
    | .refused _ => copies

/-- A sequence of evaluations, each on the copy its number names, in one interleaving (R36). -/
def applyInterleaved : List (Nat × TWord) → List State → List State
  | [], copies => copies
  | (k, t) :: rest, copies => applyInterleaved rest (applyAt k t copies)

/-- The part of an interleaving that falls to copy `k`, in its order (R36). -/
def wordsFor (k : Nat) : List (Nat × TWord) → List TWord
  | [] => []
  | (j, t) :: rest => if j = k then t :: wordsFor k rest else wordsFor k rest

end Sys2Proof.Machine
end

