-- ==== Sys2Proof/Machine/Eval.lean ====
section
/-! DEFINITION. The block as the one total function of R10. -/

namespace Sys2Proof.Machine

/-- `eval : (op, a, b, draw) -> (result, status)`: "Every rule of the `4N_` files is one arm" (R10), chosen by `op` (R45, R46), on operands
assembled as R44 says. -/
def eval (op : OpBits) (a b draw : Word) : Outputs :=
  match op.toNat with
  | 0x0 => bwuOutputs a b draw
  | 0x1 => bwsOutputs a b draw
  | 0x2 => popcntOutputs a draw
  | 0x3 => log2Outputs a draw
  | 0x4 => clzOutputs a draw
  | 0x5 => zzencOutputs a draw
  | 0x6 => zzdecOutputs a draw
  | 0x7 => seqgtOutputs (low16 a) (low16 b) draw
  | 0x8 => seqltOutputs (low16 a) (low16 b) draw
  | _ => illegalOutputs draw

end Sys2Proof.Machine
end

