-- ==== Sys2Proof/Machine/Units.lean ====
section
/-! DEFINITION. The unit view: the five sub-blocks with their own ports (R21 to R25) and the top level built from them (R26). A unit
output the spec leaves unspecified is an argument, so it ranges over all values (log 14). -/

namespace Sys2Proof.Machine

/-- The outputs of `bit_width_calculator` (R21). -/
structure BitWidthPorts where
  /-- `bits[5:0]`. -/
  bits : BitVec 6
  /-- `range_err`. -/
  rangeErr : Bool
deriving DecidableEq, Repr

/-- The outputs of `popcount_lz_unit` (R22). -/
structure PopcountLzPorts where
  /-- `pop[5:0]`. -/
  pop : BitVec 6
  /-- `log2[4:0]`. -/
  log2 : BitVec 5
  /-- `clz[5:0]`. -/
  clz : BitVec 6
  /-- `log2_err`. -/
  log2Err : Bool
deriving DecidableEq, Repr

/-- The outputs of `seq_comparator_16b` (R25). -/
structure SeqComparatorPorts where
  /-- `gt`. -/
  gt : Bool
  /-- `lt`. -/
  lt : Bool
deriving DecidableEq, Repr

/-- `bit_width_calculator` (R21): `min > max` is compared as `s32` when `signed_bounds` is 1, as `u32` when it is 0. -/
def bitWidthCalculator (min max : Word) (signedBounds : Bool) (draw : BitVec 6) : BitWidthPorts :=
  let err := if signedBounds then bwsRangeError min max else bwuRangeError min max
  { bits := if err then draw else BitVec.ofNat 6 (bitwidth32 (sub32 max min)), rangeErr := err }

/-- `popcount_lz_unit` (R22). -/
def popcountLzUnit (x : Word) (draw : BitVec 5) : PopcountLzPorts :=
  { pop := BitVec.ofNat 6 (onesCount x)
    log2 := if log2Error x then draw else BitVec.ofNat 5 (highestSetBit x)
    clz := BitVec.ofNat 6 (leadingZeros x)
    log2Err := log2Error x }

/-- `zigzag_encoder` (R23). -/
def zigzagEncoder (n : Word) : Word := zigzag n

/-- `zigzag_decoder` (R24). -/
def zigzagDecoder (u : Word) : Word := unzigzag u

/-- `seq_comparator_16b` (R25). -/
def seqComparator16b (s1 s2 : SeqNum) : SeqComparatorPorts := { gt := seqGt s1 s2, lt := seqGt s2 s1 }

/-- The unspecified unit outputs of one moment (R21, R22). -/
structure UnitDraws where
  /-- `bits` while `range_err` is 1. -/
  bits : BitVec 6
  /-- `log2` while `log2_err` is 1. -/
  log2 : BitVec 5
deriving DecidableEq, Repr

/-- The inputs of the five units (R21 to R25). -/
structure UnitInputs where
  /-- `bit_width_calculator`'s `min`. -/
  min : Word
  /-- `bit_width_calculator`'s `max`. -/
  max : Word
  /-- `bit_width_calculator`'s `signed_bounds`. -/
  signedBounds : Bool
  /-- `popcount_lz_unit`'s `x`. -/
  x : Word
  /-- `zigzag_encoder`'s `n`. -/
  n : Word
  /-- `zigzag_decoder`'s `u`. -/
  u : Word
  /-- `seq_comparator_16b`'s `s1`. -/
  s1 : SeqNum
  /-- `seq_comparator_16b`'s `s2`. -/
  s2 : SeqNum
deriving DecidableEq, Repr

/-- The outputs of the five units (R21 to R25). -/
structure UnitPorts where
  /-- What `bit_width_calculator` drives. -/
  bitWidth : BitWidthPorts
  /-- What `popcount_lz_unit` drives. -/
  popcountLz : PopcountLzPorts
  /-- `zigzag_encoder`'s `u`. -/
  encoded : Word
  /-- `zigzag_decoder`'s `n`. -/
  decoded : Word
  /-- What `seq_comparator_16b` drives. -/
  seqComparator : SeqComparatorPorts
deriving DecidableEq, Repr

/-- What the core drives the unit inputs with (R26). -/
def unitInputs (op : OpBits) (a b : Word) : UnitInputs :=
  { min := a, max := b, signedBounds := decide (op = 0x1#4), x := a, n := a, u := a, s1 := low16 a, s2 := low16 b }

/-- All units' outputs for the present inputs of the core (R26). -/
def unitPorts (op : OpBits) (a b : Word) (d : UnitDraws) : UnitPorts :=
  let i := unitInputs op a b
  { bitWidth := bitWidthCalculator i.min i.max i.signedBounds d.bits
    popcountLz := popcountLzUnit i.x d.log2
    encoded := zigzagEncoder i.n
    decoded := zigzagDecoder i.u
    seqComparator := seqComparator16b i.s1 i.s2 }

/-- A narrow unit output zero-extended onto `result` (R8 `zext_32`, R17). -/
def zext32 {n : Nat} (v : BitVec n) : Word := v.setWidth 32

/-- The core's outputs selected by `op` from the units' outputs (R26). -/
def coreFromUnits (op : OpBits) (a b : Word) (d : UnitDraws) (draw : Word) : Outputs :=
  let p := unitPorts op a b d
  match op.toNat with
  | 0x0 | 0x1 => if p.bitWidth.rangeErr then raise .precond draw else ok (zext32 p.bitWidth.bits)
  | 0x2 => ok (zext32 p.popcountLz.pop)
  | 0x3 => if p.popcountLz.log2Err then raise .precond draw else ok (zext32 p.popcountLz.log2)
  | 0x4 => ok (zext32 p.popcountLz.clz)
  | 0x5 => ok p.encoded
  | 0x6 => ok p.decoded
  | 0x7 => ok (boolResult p.seqComparator.gt)
  | 0x8 => ok (boolResult p.seqComparator.lt)
  | _ => raise .illegal draw

/-- `x` smeared to the right: the construction R74 gives for checking LOG2 and CLZ against POPCNT. -/
def smear (x : Word) : Word :=
  let s1 := x ||| (x >>> 1)
  let s2 := s1 ||| (s1 >>> 2)
  let s4 := s2 ||| (s2 >>> 4)
  let s8 := s4 ||| (s4 >>> 8)
  s8 ||| (s8 >>> 16)

end Sys2Proof.Machine
end

