-- ==== Sys2Proof/Safety.lean ====
section
/-! DEFINITION. The terms in which claims speak of a good state and a good run. -/

namespace Sys2Proof.Machine

/-- The run goes on: bwc_core never stops (R104, R105). -/
def Completes (o : Host.Outcome State Fault Refusal) : Prop := ∃ s', o = .next s'

/-- The outputs are those of the present inputs for some draw (R20, R27): a `result` beside a non-OK status may be any value, which is
why the port's own value serves as the draw. -/
abbrev Settled (s : State) : Prop := s.outputs = eval s.op s.a s.b s.result

/-- The status port carries a code that is driven (R18, R100). -/
abbrev StatusLegal (s : State) : Prop := s.status ≠ 0b11#2

/-- The premise under which a claim may speak of `result` (R9, R17). -/
abbrev Trusted (s : State) : Prop := s.status = 0b00#2

/-- The bits of `result` that an operation with this op can set when it is OK (R17): a count uses bits 5..0 and a boolean bit 0. -/
def resultBits (op : OpBits) : Nat :=
  match op.toNat with
  | 0x0 | 0x1 | 0x2 | 0x3 | 0x4 => 6
  | 0x7 | 0x8 => 1
  | _ => 32

/-- A narrow result is zero-extended (R17). -/
abbrev ResultNarrow (s : State) : Prop := Trusted s → s.result.toNat < 2 ^ resultBits s.op

/-- The machine's invariant between an evaluation and the next change of the inputs. -/
structure Inv (s : State) : Prop where
  /-- R20, R27. -/
  settled : Settled s
  /-- R18, R100. -/
  statusLegal : StatusLegal s
  /-- R17. -/
  resultNarrow : ResultNarrow s

end Sys2Proof.Machine
end

