-- ==== Sys2Proof/Certificates/Slice0/Obligations.lean ====
section
/-! DEFINITION. The statements for the provers, from the spec's numbered rules. A result the spec leaves unspecified is stated as some
`draw`, with the model's own count of draws at some `n` (log 3). ExecChangesOnlyOutputs, UnspecifiedResultIsAFreshDraw and
InterleavingDoesNotMatter alone speak of the count or the draw, and say that this is the model's choice. -/

open Sys2Proof Sys2Proof.Machine

/-! ### The machine as a whole -/

/-- The model's reset state (its values are the model's choice, log 2: the block has no reset, R120) meets the invariant, and the first
evaluation from it, with nothing driven, gives the same outputs again. -/
def Obligations.ResetMeetsInvariant : Prop := Inv State.reset ∧ step State.reset = .next State.reset

/-- From EVERY state, so in particular from one that meets Inv, a step ends in a state that meets Inv: outputs that are `eval` of the
present inputs (R20, R27), a status other than 2'b11 (R100), a narrow result zero-extended (R17). -/
def Obligations.EveryStepKeepsInvariant : Prop := ∀ s s' : State, step s = .next s' → Inv s'

/-- A step is exec of what the input ports decode to; it moves nothing else, there being no pc (R14). A word that a driver applies, or
that withFetchWord places, is what the next step evaluates (log 6). -/
def Obligations.StepRunsDecodedPorts : Prop :=
  (∀ s : State, step s = exec (decode (pack s.op s.b s.a)) s) ∧
  (∀ (s : State) (t : TWord), step (s.driveWord t) = exec (decode t) (s.driveWord t)) ∧
  (∀ (s : State) (t : TWord) (nbits : Nat), 68 ≤ nbits → s.withFetchWord nbits t.toNat = s.driveWord t)

/-- R10: a step is one application of the total function `eval` to the present inputs, and the draw is read only when the status is
not OK, as `result` itself. -/
def Obligations.StepIsEvalOfPresentInputs : Prop :=
  ∀ s : State, ∃ (draw : Word) (n : Nat),
    step s = .next { s with
      result := (eval s.op s.a s.b draw).result, status := (eval s.op s.a s.b draw).status, draws := n } ∧
    ∀ d : Word,
      (eval s.op s.a s.b d).status = (eval s.op s.a s.b draw).status ∧
      ((eval s.op s.a s.b d).status = 0b00#2 → eval s.op s.a s.b d = eval s.op s.a s.b draw) ∧
      ((eval s.op s.a s.b d).status ≠ 0b00#2 → (eval s.op s.a s.b d).result = d)

/-- R126, R20: whatever was evaluated before, and from whatever state, the same inputs give the same status, and the same result when
it is OK. -/
def Obligations.OutputsIgnoreHistory : Prop :=
  ∀ (before₁ before₂ : List TWord) (t : TWord) (s₁ s₂ s₁' s₂' : State),
    applyWords (before₁ ++ [t]) s₁ = .next s₁' → applyWords (before₂ ++ [t]) s₂ = .next s₂' →
    s₁'.status = s₂'.status ∧ (s₁'.status = 0b00#2 → s₁'.result = s₂'.result)

/-- R104, R105: nothing stops the block; every sequence of evaluations completes, and leaves the last word on the input ports. -/
def Obligations.EverySequenceCompletes : Prop :=
  ∀ (before : List TWord) (t : TWord) (s : State),
    ∃ s', applyWords (before ++ [t]) s = .next s' ∧ pack s'.op s'.b s'.a = t

/-- R35: an OK evaluation of the same inputs again changes nothing; one that is not OK gives the same status again, its result being a
new draw (R126). -/
def Obligations.EvaluationIsIdempotent : Prop :=
  ∀ s s' : State, step s = .next s' →
    (s'.status = 0b00#2 → step s' = .next s') ∧ (∀ s'', step s' = .next s'' → s''.status = s'.status)

/-- The frame of every instruction: an evaluation drives `result` and `status` and nothing else. The input ports keep what the driver
applied (R11, R15), and the model's own draw counter (log 3) moves only when the status is not OK. -/
def Obligations.ExecChangesOnlyOutputs : Prop :=
  ∀ (i : Instr) (s s' : State), exec i s = .next s' →
    s'.op = s.op ∧ s'.a = s.a ∧ s'.b = s.b ∧ (s'.status = 0b00#2 → s'.draws = s.draws)

/-- Beside a status that is not OK, `result` is the model's draw, and that draw is used up (R9, R126; that draws are indexed by a counter
is the model's choice, log 3). -/
def Obligations.UnspecifiedResultIsAFreshDraw : Prop :=
  ∀ (i : Instr) (s s' : State), exec i s = .next s' → s'.status ≠ 0b00#2 →
    s'.result = Config.freeResult s.draws ∧ s'.draws = s.draws + 1

/-- R101, R102: PRECOND exactly on the three listed causes, ILLEGAL exactly on a reserved op, OK otherwise; beside a status that is not
OK, `result` is left to the draw. -/
def Obligations.StatusReportsExactlyTheCauses : Prop :=
  ∀ s s' : State, step s = .next s' →
    (s'.status = 0b01#2 ↔
      (s.op = 0x0#4 ∧ s.a.toNat > s.b.toNat) ∨ (s.op = 0x1#4 ∧ s.a.toInt > s.b.toInt) ∨ (s.op = 0x3#4 ∧ s.a = 0#32)) ∧
    (s'.status = 0b10#2 ↔ 0x9 ≤ s.op.toNat) ∧
    (s'.status = 0b00#2 ∨ s'.status = 0b01#2 ∨ s'.status = 0b10#2) ∧
    (s'.status ≠ 0b00#2 → ∀ d : Word, (eval s.op s.a s.b d).result = d)

/-- D13, R122: after an evaluation a driver never meets 2'b11, and takes a value from `result` exactly when the status is OK. -/
def Obligations.DriverReadsValueOnlyWhenOk : Prop :=
  ∀ s s' : State, step s = .next s' →
    s'.reading ≠ .leftTheSpec ∧ ∀ v : Word, s'.reading = .value v ↔ s'.status = 0b00#2 ∧ s'.result = v

/-! ### Encoding -/

/-- Every instruction, with every operand at every value, decodes back from its encoding; and encoding what a word decodes to gives the
word with exactly its ignored bits cleared (R42, R43). That the ignored bits are written 0 is the model's choice (log 8). -/
def Obligations.DecodeAndEncodeAgree : Prop :=
  (∀ i : Instr, decode (encode i) = i) ∧ (∀ t : TWord, encode (decode t) = t &&& readMask (opField t))

/-- R47, R42, R43: words that differ only in ignored bits name the same evaluation, and give the same outputs. -/
def Obligations.IgnoredBitsChangeNothing : Prop :=
  ∀ t t' : TWord, t &&& readMask (opField t) = t' &&& readMask (opField t) →
    decode t = decode t' ∧
    ∀ s r r' : State, applyWord t s = .next r → applyWord t' s = .next r' →
      r.status = r'.status ∧ (r.status = 0b00#2 → r.result = r'.result)

/-- R49: every 68-bit T falls under exactly one row of the opcode table, decodes to that row's instruction, and the choice reads
`T[67:64]` only. -/
def Obligations.DecodeIsTotalAndUnambiguous : Prop :=
  ∀ t : TWord,
    (∃ r ∈ opTable, r.covers t = true ∧ (decode t).mnemonic = r.mnemonic ∧ (decode t).opcode = opField r.pattern ∧
      ∀ r' ∈ opTable, r'.covers t = true → r' = r) ∧
    ((decode t).isReserved = true ↔ 0x9 ≤ (opField t).toNat) ∧
    ∀ t' : TWord, opField t' = opField t → (decode t').opcode = (decode t).opcode

/-- The encoding of any instruction is read back from the table's numbering of its bits, at any width that holds it, and a number with a
bit above bit 67 is rejected by name (log 15). -/
def Obligations.OnlyTransactionWordsDecode : Prop :=
  (∀ (i : Instr) (nbits : Nat), 68 ≤ nbits → decodeTableWord nbits (encode i).toNat = some i) ∧
  (∀ w : Nat, 2 ^ 68 ≤ w → decodeNat w = .error .longerThanTransactionWord)

/-- Words written out in spec/30_encoding.md and spec/40 to 43 and 95 decode to the instructions they stand for there. -/
def Obligations.SpecExampleWordsDecode : Prop :=
  decode 0x0_000003ED_000003E8#68 = .bwu 1000#32 1005#32 ∧
  decode 0x1_0000000A_FFFFFFF6#68 = .bws (BitVec.ofInt 32 (-10)) 10#32 ∧
  decode 0x2_FFFFFFFF_00000003#68 = .popcnt 3#32 ∧
  decode 0x5_00000000_FFFFFFC0#68 = .zzenc (BitVec.ofInt 32 (-64)) ∧
  decode 0x7_0000FFDC_00000064#68 = .seqgt 100#16 65500#16 ∧
  decode 0xC_00000005_00000005#68 = .reservedC

/-- Evaluating the encoding of an instruction is evaluating the instruction, so what is stated of exec reaches every run. -/
def Obligations.EncodedInstructionIsEvaluated : Prop :=
  ∀ (i : Instr) (s : State), applyWord (encode i) s = exec i (s.driveWord (encode i))

/-! ### Bit-width calculation (spec/40_bit_width.md) -/

/-- R61, whole: the encoding, the unsigned check, the width and the status. -/
def Obligations.BwuGivesUnsignedRangeWidth : Prop :=
  ∀ (min max : Word) (s : State),
    decode (pack 0x0#4 max min) = .bwu min max ∧
    (min.toNat ≤ max.toNat →
      exec (.bwu min max) s = .next { s with
        result := BitVec.ofNat 32 (if max.toNat - min.toNat = 0 then 0 else Nat.log2 (max.toNat - min.toNat) + 1)
        status := 0b00#2 }) ∧
    (min.toNat > max.toNat →
      ∃ (draw : Word) (n : Nat), exec (.bwu min max) s = .next { s with
        result := draw, status := 0b01#2, draws := n })

/-- R62, whole: the encoding, the signed check, the width and the status. -/
def Obligations.BwsGivesSignedRangeWidth : Prop :=
  ∀ (min max : Word) (s : State),
    decode (pack 0x1#4 max min) = .bws min max ∧
    (min.toInt ≤ max.toInt →
      exec (.bws min max) s = .next { s with
        result := BitVec.ofNat 32
          (if max.toInt - min.toInt = 0 then 0 else Nat.log2 (max.toInt - min.toInt).toNat + 1)
        status := 0b00#2 }) ∧
    (min.toInt > max.toInt →
      ∃ (draw : Word) (n : Nat), exec (.bws min max) s = .next { s with
        result := draw, status := 0b01#2, draws := n })

/-- R60: `bitwidth32(d)` is 0 at 0 and floor(log2) + 1 elsewhere, lies in [0, 32], is 32 exactly when `d[31] = 1`, and is the smallest
`w` with `d < 2^w`. -/
def Obligations.BitwidthIsLeastWidth : Prop :=
  ∀ d : Word,
    bitwidth32 d = (if d.toNat = 0 then 0 else Nat.log2 d.toNat + 1) ∧
    bitwidth32 d ≤ 32 ∧ (bitwidth32 d = 32 ↔ d.getLsbD 31 = true) ∧
    d.toNat < 2 ^ bitwidth32 d ∧ ∀ w : Nat, d.toNat < 2 ^ w → bitwidth32 d ≤ w

/-- R63: an OK width is at most 32, is 0 exactly for a one-value range, holds every offset `v - min`, and the largest offset takes all
its bits. -/
def Obligations.WidthHoldsEveryOffset : Prop :=
  ∀ (min max : Word) (s s' : State), s'.status = 0b00#2 →
    (exec (.bwu min max) s = .next s' →
      s'.result.toNat ≤ 32 ∧ s'.result.extractLsb' 6 26 = 0#26 ∧ (s'.result = 0#32 ↔ min = max) ∧
      (∀ v : Word, min.toNat ≤ v.toNat → v.toNat ≤ max.toNat → v.toNat - min.toNat < 2 ^ s'.result.toNat) ∧
      (0 < s'.result.toNat → 2 ^ (s'.result.toNat - 1) ≤ max.toNat - min.toNat)) ∧
    (exec (.bws min max) s = .next s' →
      s'.result.toNat ≤ 32 ∧ s'.result.extractLsb' 6 26 = 0#26 ∧ (s'.result = 0#32 ↔ min = max) ∧
      (∀ v : Word, min.toInt ≤ v.toInt → v.toInt ≤ max.toInt → v.toInt - min.toInt < 2 ^ s'.result.toNat) ∧
      (0 < s'.result.toNat → 2 ^ (s'.result.toNat - 1) ≤ max.toInt - min.toInt))

/-- R64: BWU and BWS give the same result whenever both are OK, and differ only in which inputs are PRECOND. -/
def Obligations.BwuAndBwsAgree : Prop :=
  ∀ (a b : Word) (s t s' t' : State), exec (.bwu a b) s = .next s' → exec (.bws a b) t = .next t' →
    (s'.status = 0b00#2 → t'.status = 0b00#2 → s'.result = t'.result) ∧
    (s'.status = 0b01#2 ↔ a.toNat > b.toNat) ∧ (t'.status = 0b01#2 ↔ a.toInt > b.toInt)

/-- R66: `bitwidth32(d) = 32 - clz(d)`, and `log2(d) + 1` for `d ≠ 0`; so BWU on [0, d], CLZ and LOG2 give tied results. -/
def Obligations.WidthTiedToLeadingZeros : Prop :=
  (∀ d : Word, bitwidth32 d = 32 - leadingZeros d ∧ (d ≠ 0#32 → bitwidth32 d = highestSetBit d + 1)) ∧
  (∀ (d : Word) (s : State), ∃ w : Nat, w ≤ 32 ∧
    exec (.bwu 0#32 d) s = .next { s with result := BitVec.ofNat 32 w, status := 0b00#2 } ∧
    exec (.clz d) s = .next { s with result := BitVec.ofNat 32 (32 - w), status := 0b00#2 } ∧
    (d ≠ 0#32 → 1 ≤ w ∧
      exec (.log2 d) s = .next { s with result := BitVec.ofNat 32 (w - 1), status := 0b00#2 }))

/-! ### Population count and leading zeros (spec/41_popcount_lz.md) -/

/-- R70, whole: POPCNT counts the set bits, whatever `b` holds, and is always OK. -/
def Obligations.PopcntCountsSetBits : Prop :=
  ∀ (x b : Word) (s : State),
    decode (pack 0x2#4 b x) = .popcnt x ∧
    exec (.popcnt x) s = .next { s with
      result := BitVec.ofNat 32 (Finset.univ.filter fun i : Fin 32 => x.getLsbD i = true).card, status := 0b00#2 }

/-- R71, whole: LOG2 gives the index of the highest set bit, which is floor(log2), and reports PRECOND at 0. -/
def Obligations.Log2GivesHighestSetBit : Prop :=
  ∀ (x b : Word) (s : State),
    decode (pack 0x3#4 b x) = .log2 x ∧
    (x ≠ 0#32 → ∃ k : Nat,
      exec (.log2 x) s = .next { s with result := BitVec.ofNat 32 k, status := 0b00#2 } ∧
      k ≤ 31 ∧ x.getLsbD k = true ∧ (∀ j, k < j → x.getLsbD j = false) ∧ k = Nat.log2 x.toNat) ∧
    (x = 0#32 → ∃ (draw : Word) (n : Nat), exec (.log2 x) s = .next { s with
      result := draw, status := 0b01#2, draws := n })

/-- R72, whole: CLZ counts the zeros above the highest set bit, gives 32 at 0, and is always OK. -/
def Obligations.ClzCountsLeadingZeros : Prop :=
  ∀ (x b : Word) (s : State),
    decode (pack 0x4#4 b x) = .clz x ∧
    ∃ n : Nat, exec (.clz x) s = .next { s with result := BitVec.ofNat 32 n, status := 0b00#2 } ∧
      (x = 0#32 → n = 32) ∧
      (x ≠ 0#32 → n ≤ 31 ∧ x.getLsbD (31 - n) = true ∧ ∀ j, 31 - n < j → x.getLsbD j = false)

/-- R73, whole: the laws that tie CLZ to LOG2, and POPCNT to the complement and to the powers of two. -/
def Obligations.PopcountLzLaws : Prop :=
  ∀ (x : Word) (s : State),
    (x ≠ 0#32 → ∃ k : Nat, k ≤ 31 ∧
      exec (.log2 x) s = .next { s with result := BitVec.ofNat 32 k, status := 0b00#2 } ∧
      exec (.clz x) s = .next { s with result := BitVec.ofNat 32 (31 - k), status := 0b00#2 }) ∧
    ∃ p : Nat, p ≤ 32 ∧
      exec (.popcnt x) s = .next { s with result := BitVec.ofNat 32 p, status := 0b00#2 } ∧
      exec (.popcnt (~~~x)) s = .next { s with result := BitVec.ofNat 32 (32 - p), status := 0b00#2 } ∧
      (p = 0 ↔ x = 0#32) ∧ (p = 1 ↔ ∃ k : Nat, x.toNat = 2 ^ k) ∧
      ∀ k : Nat, x.toNat = 2 ^ k →
        exec (.log2 x) s = .next { s with result := BitVec.ofNat 32 k, status := 0b00#2 }

/-- R74's identity: the population count of the smeared word gives LOG2 and CLZ. -/
def Obligations.SmearGivesLog2AndClz : Prop :=
  ∀ x : Word, x ≠ 0#32 →
    highestSetBit x = onesCount (smear x) - 1 ∧ leadingZeros x = 32 - onesCount (smear x)

/-! ### Zig-zag (spec/42_zigzag.md) -/

/-- R80, whole: the encoding with any `b`, every result bit, always OK. -/
def Obligations.ZzencResultBits : Prop :=
  ∀ (n b : Word) (s : State),
    decode (pack 0x5#4 b n) = .zzenc n ∧
    ∃ r : Word, exec (.zzenc n) s = .next { s with result := r, status := 0b00#2 } ∧
      r = (n <<< 1) ^^^ (if n.getLsbD 31 then 0xFFFFFFFF#32 else 0#32) ∧
      r.getLsbD 0 = n.getLsbD 31 ∧ ∀ i : Nat, 1 ≤ i → i ≤ 31 → r.getLsbD i = (n.getLsbD (i - 1) ^^ n.getLsbD 31)

/-- R81, whole: the encoding with any `b`, every result bit, always OK. -/
def Obligations.ZzdecResultBits : Prop :=
  ∀ (u b : Word) (s : State),
    decode (pack 0x6#4 b u) = .zzdec u ∧
    ∃ r : Word, exec (.zzdec u) s = .next { s with result := r, status := 0b00#2 } ∧
      r = (u >>> 1) ^^^ (-(u &&& 1#32)) ∧
      r.getLsbD 31 = u.getLsbD 0 ∧ ∀ i : Nat, i ≤ 30 → r.getLsbD i = (u.getLsbD (i + 1) ^^ u.getLsbD 0)

/-- R82: the arithmetic form of both, and the bound on the code of a small magnitude. -/
def Obligations.ZigzagArithmeticForm : Prop :=
  (∀ (n : Word) (s : State), ∃ r : Word,
    exec (.zzenc n) s = .next { s with result := r, status := 0b00#2 } ∧
    (r.toNat : Int) = (if 0 ≤ n.toInt then 2 * n.toInt else -2 * n.toInt - 1) ∧ r.toNat ≤ 2 * n.toInt.natAbs) ∧
  (∀ (u : Word) (s : State), ∃ r : Word,
    exec (.zzdec u) s = .next { s with result := r, status := 0b00#2 } ∧
    r.toInt = if u.toNat % 2 = 0 then (u.toNat : Int) / 2 else -(((u.toNat : Int) + 1) / 2))

/-- R83: ZZENC and ZZDEC are mutually inverse on all patterns, so both are bijections. -/
def Obligations.ZigzagIsABijection : Prop :=
  (∀ (n : Word) (s t : State), ∃ u : Word,
    exec (.zzenc n) s = .next { s with result := u, status := 0b00#2 } ∧
    exec (.zzdec u) t = .next { t with result := n, status := 0b00#2 }) ∧
  (∀ (u : Word) (s t : State), ∃ n : Word,
    exec (.zzdec u) s = .next { s with result := n, status := 0b00#2 } ∧
    exec (.zzenc n) t = .next { t with result := u, status := 0b00#2 })

/-! ### Sequence comparison (spec/43_seq_compare.md) -/

/-- R91, whole: the encoding with any upper operand bits, the formula of R90 as 1 or 0, always OK. -/
def Obligations.SeqgtFollowsFormula : Prop :=
  (∀ (h1 h2 s1 s2 : SeqNum), decode (pack 0x7#4 (h2 ++ s2) (h1 ++ s1)) = .seqgt s1 s2) ∧
  ∀ (s1 s2 : SeqNum) (s : State),
    exec (.seqgt s1 s2) s = .next { s with
      result := if (s1.toNat > s2.toNat ∧ s1.toNat - s2.toNat ≤ 32768) ∨
        (s1.toNat < s2.toNat ∧ s2.toNat - s1.toNat > 32768) then 1#32 else 0#32
      status := 0b00#2 }

/-- R92, whole: the encoding with any upper operand bits, the formula with its operands exchanged, always OK. -/
def Obligations.SeqltFollowsFormula : Prop :=
  (∀ (h1 h2 s1 s2 : SeqNum), decode (pack 0x8#4 (h2 ++ s2) (h1 ++ s1)) = .seqlt s1 s2) ∧
  ∀ (s1 s2 : SeqNum) (s : State),
    exec (.seqlt s1 s2) s = .next { s with
      result := if (s2.toNat > s1.toNat ∧ s2.toNat - s1.toNat ≤ 32768) ∨
        (s2.toNat < s1.toNat ∧ s1.toNat - s2.toNat > 32768) then 1#32 else 0#32
      status := 0b00#2 }

/-- R90's equivalent form with `d = (s1 - s2) mod 65536`. -/
def Obligations.SeqgtModularForm : Prop :=
  ∀ s1 s2 : SeqNum,
    (seqGt s1 s2 = true ↔ (s1.toNat > s2.toNat ∧ s1.toNat - s2.toNat ≤ 32768) ∨
      (s1.toNat < s2.toNat ∧ s2.toNat - s1.toNat > 32768)) ∧
    (seqGt s1 s2 = true ↔ (1 ≤ (s1 - s2).toNat ∧ (s1 - s2).toNat ≤ 32767) ∨
      ((s1 - s2).toNat = 32768 ∧ s1.toNat > s2.toNat))

/-- R93: exactly 32768 apart, the numerically larger value is the greater. -/
def Obligations.SeqgtBoundaryRule : Prop :=
  ∀ (v : Nat) (s : State), v ≤ 32767 →
    exec (.seqgt (BitVec.ofNat 16 (v + 32768)) (BitVec.ofNat 16 v)) s =
      .next { s with result := 1#32, status := 0b00#2 } ∧
    exec (.seqgt (BitVec.ofNat 16 v) (BitVec.ofNat 16 (v + 32768))) s =
      .next { s with result := 0#32, status := 0b00#2 }

/-- R94: irreflexive; for distinct values exactly one of SEQGT and SEQLT gives 1; not transitive. -/
def Obligations.SeqgtOrderLaws : Prop :=
  (∀ s1 : SeqNum, seqGt s1 s1 = false) ∧
  (∀ (s1 s2 : SeqNum) (s t s' t' : State), s1 ≠ s2 →
    exec (.seqgt s1 s2) s = .next s' → exec (.seqlt s1 s2) t = .next t' →
    (s'.result = 1#32 ∧ t'.result = 0#32) ∨ (s'.result = 0#32 ∧ t'.result = 1#32)) ∧
  (seqGt 20000#16 0#16 = true ∧ seqGt 40000#16 20000#16 = true ∧ seqGt 40000#16 0#16 = false)

/-- R95's use, under the half-domain premise: counters fewer than 32768 apart are ordered by SEQGT on their low 16 bits as they truly
are. -/
def Obligations.SeqgtDecidesElapsedOrder : Prop :=
  ∀ (n1 n2 : Nat) (s : State), n1 ≤ n2 + 32767 → n2 ≤ n1 + 32767 →
    exec (.seqgt (BitVec.ofNat 16 n1) (BitVec.ofNat 16 n2)) s =
      .next { s with result := if n1 > n2 then 1#32 else 0#32, status := 0b00#2 }

/-- R51: `SEQLT s1, s2` and `SEQGT s2, s1` give the same outputs, though their transaction words differ. -/
def Obligations.SeqltIsSeqgtExchanged : Prop :=
  ∀ (s1 s2 : SeqNum) (s : State),
    exec (.seqlt s1 s2) s = exec (.seqgt s2 s1) s ∧ encode (.seqlt s1 s2) ≠ encode (.seqgt s2 s1)

/-! ### Reserved op values and status (spec/60_exceptions.md) -/

/-- R46, R102: a reserved op reports ILLEGAL and leaves `result` a draw, whatever `a` and `b` hold; every reserved instruction does. -/
def Obligations.ReservedOpReportsIllegal : Prop :=
  (∀ (op : OpBits) (a b : Word) (s : State), 0x9 ≤ op.toNat →
    ∃ (draw : Word) (n : Nat), step (s.driveInputs op b a) =
      .next { op := op, a := a, b := b, result := draw, status := 0b10#2, draws := n }) ∧
  (∀ (i : Instr) (s : State), i.isReserved = true →
    ∃ (draw : Word) (n : Nat), exec i s = .next { s with result := draw, status := 0b10#2, draws := n })

/-! ### The unit view (spec/10_state.md) and several copies -/

/-- R21: `range_err` and `bits` of bit_width_calculator. -/
def Obligations.BitWidthUnitPorts : Prop :=
  ∀ (min max : Word) (draw : BitVec 6),
    ((bitWidthCalculator min max false draw).rangeErr = true ↔ min.toNat > max.toNat) ∧
    ((bitWidthCalculator min max true draw).rangeErr = true ↔ min.toInt > max.toInt) ∧
    ∀ sb : Bool,
      ((bitWidthCalculator min max sb draw).rangeErr = false →
        (bitWidthCalculator min max sb draw).bits.toNat = bitwidth32 (max - min)) ∧
      ((bitWidthCalculator min max sb draw).rangeErr = true → (bitWidthCalculator min max sb draw).bits = draw)

/-- R22: the outputs of popcount_lz_unit, none of which its port's width cuts short. -/
def Obligations.PopcountLzUnitPorts : Prop :=
  ∀ (x : Word) (draw : BitVec 5),
    (popcountLzUnit x draw).pop.toNat = onesCount x ∧ (popcountLzUnit x draw).clz.toNat = leadingZeros x ∧
    ((popcountLzUnit x draw).log2Err = true ↔ x = 0#32) ∧
    (x ≠ 0#32 → (popcountLzUnit x draw).log2.toNat = Nat.log2 x.toNat) ∧
    (x = 0#32 → (popcountLzUnit x draw).log2 = draw)

/-- R23, R24, R25: the outputs of the zig-zag units and of the sequence comparator are their operations' results, and always OK. -/
def Obligations.UnitOutputsAreOperationResults : Prop :=
  (∀ (v : Word) (s : State),
    exec (.zzenc v) s = .next { s with result := zigzagEncoder v, status := 0b00#2 } ∧
    exec (.zzdec v) s = .next { s with result := zigzagDecoder v, status := 0b00#2 }) ∧
  (∀ (s1 s2 : SeqNum) (s : State),
    exec (.seqgt s1 s2) s = .next { s with
      result := if (seqComparator16b s1 s2).gt then 1#32 else 0#32, status := 0b00#2 } ∧
    exec (.seqlt s1 s2) s = .next { s with
      result := if (seqComparator16b s1 s2).lt then 1#32 else 0#32, status := 0b00#2 })

/-- R26: the core drives the unit inputs from `a` and `b`, and selecting by `op` among the units' outputs gives the operation rules,
whatever the unspecified unit outputs are. -/
def Obligations.UnitsComposeToOperationRules : Prop :=
  ∀ (op : OpBits) (a b : Word) (d : UnitDraws) (draw : Word),
    unitInputs op a b = { min := a, max := b, signedBounds := decide (op = 0x1#4), x := a, n := a, u := a,
                          s1 := a.extractLsb' 0 16, s2 := b.extractLsb' 0 16 } ∧
    coreFromUnits op a b d draw = eval op a b draw

/-- In every interleaving, each copy of the block ends as if its own words alone had been applied to it. R36 and R110 say so of the input
ports, of `status`, and of `result` beside an OK status. That whole States are equated, with the `result` beside a status that is not OK
and the draw counter, is the model's choice: draws are indexed by a counter (log 3) and copies are a list of States (log 16), while R9
and R126 leave those values free. -/
def Obligations.InterleavingDoesNotMatter : Prop :=
  ∀ (schedule : List (Nat × TWord)) (copies : List State) (k : Nat) (s : State), copies[k]? = some s →
    ∃ s', applyWords (wordsFor k schedule) s = .next s' ∧ (applyInterleaved schedule copies)[k]? = some s'

/-! ### Assembler text (spec/30_encoding.md section 5) -/

/-- R50, R44: a mnemonic with literals that fit assembles to the word of R45's op and those patterns, an omitted operand 2 being
`b = 0`; a literal that does not fit is rejected. That the field is 32 bits wide for SEQGT and SEQLT too is the model's reading (log 13). -/
def Obligations.AssemblyGivesTransactionWords : Prop :=
  ∀ x y : Int, -2147483648 ≤ x → x ≤ 4294967295 → -2147483648 ≤ y → y ≤ 4294967295 →
    (∀ m op, (m, op) ∈ [("BWU", 0x0#4), ("BWS", 0x1#4), ("SEQGT", 0x7#4), ("SEQLT", 0x8#4)] →
      assemble (.evaluation m x (some y)) = .ok (pack op (BitVec.ofInt 32 y) (BitVec.ofInt 32 x))) ∧
    (∀ m op, (m, op) ∈ [("POPCNT", 0x2#4), ("LOG2", 0x3#4), ("CLZ", 0x4#4), ("ZZENC", 0x5#4), ("ZZDEC", 0x6#4)] →
      assemble (.evaluation m x none) = .ok (pack op 0#32 (BitVec.ofInt 32 x))) ∧
    (∀ z : Int, z < -2147483648 ∨ 4294967295 < z →
      assemble (.evaluation "BWU" z (some y)) = .error .operandDoesNotFit ∧
      assemble (.evaluation "BWU" x (some z)) = .error .operandDoesNotFit)
end

