-- ==== Sys2Proof/Laws/Fields.lean ====
section
/-! SUPPORT. The fields of a packed transaction word, and of the operand fields (R40, R44). -/

namespace Sys2Proof

/-- Which field holds a bit of T (R40's table). -/
theorem getLsbD_pack (op : OpBits) (b a : Word) (i : Nat) :
    (pack op b a).getLsbD i =
      if i < 32 then a.getLsbD i else if i < 64 then b.getLsbD (i - 32) else op.getLsbD (i - 64) := by
  change BitVec.getLsbD (w := 4 + 32 + 32) (op ++ b ++ a) i = _
  rw [BitVec.getLsbD_append, BitVec.getLsbD_append]
  by_cases h1 : i < 32
  · simp [h1]
  · by_cases h2 : i < 64
    · simp [h1, h2, show i - 32 < 32 by omega]
    · simp [h1, h2, show ¬ i - 32 < 32 by omega, show i - 32 - 32 = i - 64 by omega]

@[simp] theorem opField_pack (op : OpBits) (b a : Word) : opField (pack op b a) = op := by
  apply BitVec.eq_of_getLsbD_eq
  intro i hi
  rw [opField, BitVec.getLsbD_extractLsb', getLsbD_pack]
  simp [hi, show ¬ 64 + i < 32 by omega]

@[simp] theorem bField_pack (op : OpBits) (b a : Word) : bField (pack op b a) = b := by
  apply BitVec.eq_of_getLsbD_eq
  intro i hi
  rw [bField, BitVec.getLsbD_extractLsb', getLsbD_pack]
  simp [hi, show 32 + i < 64 by omega]

@[simp] theorem aField_pack (op : OpBits) (b a : Word) : aField (pack op b a) = a := by
  apply BitVec.eq_of_getLsbD_eq
  intro i hi
  rw [aField, BitVec.getLsbD_extractLsb', getLsbD_pack]
  simp [hi]

@[simp] theorem pack_fields (t : TWord) : pack (opField t) (bField t) (aField t) = t := by
  apply BitVec.eq_of_getLsbD_eq
  intro i hi
  rw [getLsbD_pack, opField, bField, aField]
  simp only [BitVec.getLsbD_extractLsb']
  by_cases h1 : i < 32
  · simp [h1]
  · by_cases h2 : i < 64
    · simp [h1, h2, show i - 32 < 32 by omega, show 32 + (i - 32) = i by omega]
    · simp [h1, h2, show i - 64 < 4 by omega, show 64 + (i - 64) = i by omega]

@[simp] theorem low16_seqOperand (s : SeqNum) : low16 (seqOperand s) = s := by
  apply BitVec.eq_of_getLsbD_eq
  intro i hi
  simp [low16, seqOperand, hi, show i < 32 by omega]

end Sys2Proof
end

