-- ==== Sys2Proof/Laws/Operands.lean ====
section
/-! SUPPORT. What the operand readings and the bit searches compute, each said once. -/

namespace Sys2Proof.Machine

theorem u32_lt (v : Word) : u32 v < 2 ^ 32 := v.isLt

/-- The signed reading is Lean's own two's-complement value. -/
theorem s32_eq_toInt (v : Word) : s32 v = v.toInt := by
  have hv := v.isLt
  rw [s32, u32, BitVec.toInt_eq_msb_cond, BitVec.msb_eq_getLsbD_last]
  cases v.getLsbD (32 - 1) <;> simp

@[simp] theorem toNat_countResult {n : Nat} (h : n < 2 ^ 32) : (countResult n).toNat = n := by
  rw [countResult, BitVec.toNat_ofNat, Nat.mod_eq_of_lt h]

theorem floorLog2Upto_le (d n : Nat) : floorLog2Upto d n ≤ n := by
  induction n with
  | zero => simp [floorLog2Upto]
  | succ n ih => rw [floorLog2Upto]; split <;> omega

/-- The search finds the largest exponent, whenever the bound is large enough. -/
theorem floorLog2Upto_spec {d : Nat} (hd : 1 ≤ d) :
    ∀ n, d < 2 ^ (n + 1) → 2 ^ floorLog2Upto d n ≤ d ∧ d < 2 ^ (floorLog2Upto d n + 1)
  | 0, h => ⟨by simpa [floorLog2Upto] using hd, by simpa [floorLog2Upto] using h⟩
  | n + 1, h => by
    rw [floorLog2Upto]
    split
    · exact ⟨‹_›, h⟩
    · exact floorLog2Upto_spec hd n (by omega)

/-- R7's definition of floor(log2) holds of the search. -/
theorem floorLog2_spec {d : Nat} (hd : 1 ≤ d) (h : d < 2 ^ 32) : 2 ^ floorLog2 d ≤ d ∧ d < 2 ^ (floorLog2 d + 1) :=
  floorLog2Upto_spec hd 31 h

theorem floorLog2_le (d : Nat) : floorLog2 d ≤ 31 := floorLog2Upto_le d 31

theorem highestSetBitBelow_le (x : Word) (n : Nat) : highestSetBitBelow x n ≤ n - 1 := by
  induction n with
  | zero => simp [highestSetBitBelow]
  | succ n ih => rw [highestSetBitBelow]; split <;> omega

theorem highestSetBit_le (x : Word) : highestSetBit x ≤ 31 := highestSetBitBelow_le x 32

theorem highestSetBitBelow_spec (x : Word) :
    ∀ n, (∃ i < n, x.getLsbD i = true) →
      x.getLsbD (highestSetBitBelow x n) = true ∧ ∀ j < n, highestSetBitBelow x n < j → x.getLsbD j = false
  | 0, h => by obtain ⟨i, hi, -⟩ := h; omega
  | n + 1, h => by
    rw [highestSetBitBelow]
    by_cases hn : x.getLsbD n = true
    · rw [if_pos hn]; exact ⟨hn, fun j hj hlt => by omega⟩
    · rw [if_neg hn]
      obtain ⟨i, hi, hx⟩ := h
      have hin : i ≠ n := fun e => hn (e ▸ hx)
      obtain ⟨h1, h2⟩ := highestSetBitBelow_spec x n ⟨i, by omega, hx⟩
      refine ⟨h1, fun j hj hlt => ?_⟩
      by_cases hjn : j = n
      · subst hjn; simpa using hn
      · exact h2 j (by omega) hlt

/-- A nonzero word has a set bit. -/
theorem exists_set_bit {x : Word} (h : x ≠ 0#32) : ∃ i < 32, x.getLsbD i = true := by
  by_contra hc
  refine h (BitVec.eq_of_getLsbD_eq fun i hi => ?_)
  have : x.getLsbD i ≠ true := fun e => hc ⟨i, hi, e⟩
  simpa using this

/-- R71's "the largest i in 0..31 with a[i] = 1" holds of the search. -/
theorem highestSetBit_spec {x : Word} (h : x ≠ 0#32) :
    x.getLsbD (highestSetBit x) = true ∧ ∀ j, highestSetBit x < j → x.getLsbD j = false := by
  obtain ⟨h1, h2⟩ := highestSetBitBelow_spec x 32 (exists_set_bit h)
  refine ⟨h1, fun j hlt => ?_⟩
  by_cases hj : j < 32
  · exact h2 j hj hlt
  · exact BitVec.getLsbD_of_ge x j (by omega)

/-- The search of R60 agrees with the library's logarithm. -/
theorem floorLog2_eq_log2 {d : Nat} (hd : 1 ≤ d) (h : d < 2 ^ 32) : floorLog2 d = Nat.log2 d :=
  ((Nat.log2_eq_iff (by omega)).2 (floorLog2_spec hd h)).symm

/-- The highest set bit is floor(log2), as R71 notes. -/
theorem highestSetBit_eq_log2 {x : Word} (h : x ≠ 0#32) : highestSetBit x = Nat.log2 x.toNat := by
  obtain ⟨h1, h2⟩ := highestSetBit_spec h
  have hx : x.toNat ≠ 0 := fun e => h (BitVec.eq_of_toNat_eq e)
  refine ((Nat.log2_eq_iff hx).2 ⟨Nat.ge_two_pow_of_testBit h1, ?_⟩).symm
  exact Nat.lt_pow_two_of_testBit _ fun i hi => h2 i (by omega)

/-- The count of R70 as the size of the set of set bits. -/
theorem onesCount_eq_card (x : Word) :
    onesCount x = (Finset.univ.filter fun i : Fin 32 => x.getLsbD i = true).card := by
  have bit (i : Fin 32) : (if x.getLsbD i = true then 1 else 0) = (fun i : Nat => (x.getLsbD i).toNat) i := by
    dsimp only
    cases x.getLsbD i <;> rfl
  rw [Finset.card_filter]
  simp only [bit]
  rw [Fin.sum_univ_eq_sum_range (fun i => (x.getLsbD i).toNat) 32]
  rfl

theorem onesCount_le (x : Word) : onesCount x ≤ 32 := by
  have key : ∀ l : List Nat, ((l.map fun i => (x.getLsbD i).toNat).sum) ≤ l.length := by
    intro l
    induction l with
    | nil => simp
    | cons i l ih =>
      have := Bool.toNat_le (x.getLsbD i)
      simp only [List.map_cons, List.sum_cons, List.length_cons]
      omega
  simpa [onesCount] using key (List.range 32)

theorem leadingZeros_le (x : Word) : leadingZeros x ≤ 32 := by
  rw [leadingZeros]; split <;> omega

theorem bitwidth32_le (d : Word) : bitwidth32 d ≤ 32 := by
  have := floorLog2_le (u32 d)
  rw [bitwidth32]; split <;> omega

/-- The arithmetic right shift by 31 copies the sign bit everywhere (R80). -/
theorem getLsbD_sshiftRight_31 (n : Word) {i : Nat} (h : i < 32) : (n.sshiftRight 31).getLsbD i = n.getLsbD 31 := by
  have hs : n.msb = n.getLsbD 31 := BitVec.msb_eq_getLsbD_last n
  rw [BitVec.getLsbD_sshiftRight, hs]
  by_cases h0 : i = 0
  · subst h0; rfl
  · rw [if_neg (show ¬ 31 + i < 32 by omega)]
    simp [show ¬ 32 ≤ i by omega]

/-- Bit by bit: `result[i] = a[i-1] ^ a[31]`, with a 0 shifted in at bit 0 (R80). -/
theorem getLsbD_zigzag (n : Word) {i : Nat} (h : i < 32) :
    (zigzag n).getLsbD i = ((decide (1 ≤ i) && n.getLsbD (i - 1)) ^^ n.getLsbD 31) := by
  rw [zigzag, BitVec.getLsbD_xor, getLsbD_sshiftRight_31 n h, BitVec.getLsbD_shiftLeft]
  by_cases h0 : i = 0
  · subst h0; rfl
  · rw [decide_eq_true h, decide_eq_false (show ¬ i < 1 by omega), decide_eq_true (show 1 ≤ i by omega)]
    rfl

/-- The mask of R81 has every bit equal to `u[0]`. -/
theorem getLsbD_unzigzag_mask (c : Bool) {i : Nat} (h : i < 32) :
    (if c then 0xFFFFFFFF#32 else 0x0#32).getLsbD i = c := by
  cases c
  · exact BitVec.getLsbD_zero
  · change (BitVec.allOnes 32).getLsbD i = true
    rw [BitVec.getLsbD_allOnes, decide_eq_true h]

/-- Bit by bit: `result[i] = a[i+1] ^ a[0]`, with a 0 shifted in at bit 31 (R81). -/
theorem getLsbD_unzigzag (u : Word) {i : Nat} (h : i < 32) :
    (unzigzag u).getLsbD i = (u.getLsbD (i + 1) ^^ u.getLsbD 0) := by
  rw [unzigzag, BitVec.getLsbD_xor, getLsbD_unzigzag_mask _ h, BitVec.getLsbD_ushiftRight, Nat.add_comm]

end Sys2Proof.Machine
end

