-- ==== Sys2Proof/Laws/State.lean ====
section
/-! SUPPORT. One lemma per field of State per update of it, so that no later proof unfolds a record update. -/

namespace Sys2Proof.Machine

section DriveInputs
variable (s : State) (op : OpBits) (b a : Word) (t : TWord) (o : Outputs)

@[simp] theorem driveInputs_op : (s.driveInputs op b a).op = op := rfl
@[simp] theorem driveInputs_a : (s.driveInputs op b a).a = a := rfl
@[simp] theorem driveInputs_b : (s.driveInputs op b a).b = b := rfl
@[simp] theorem driveInputs_result : (s.driveInputs op b a).result = s.result := rfl
@[simp] theorem driveInputs_status : (s.driveInputs op b a).status = s.status := rfl
@[simp] theorem driveInputs_draws : (s.driveInputs op b a).draws = s.draws := rfl

@[simp] theorem driveWord_op : (s.driveWord t).op = opField t := rfl
@[simp] theorem driveWord_a : (s.driveWord t).a = aField t := rfl
@[simp] theorem driveWord_b : (s.driveWord t).b = bField t := rfl
@[simp] theorem driveWord_result : (s.driveWord t).result = s.result := rfl
@[simp] theorem driveWord_status : (s.driveWord t).status = s.status := rfl
@[simp] theorem driveWord_draws : (s.driveWord t).draws = s.draws := rfl

@[simp] theorem driveOutputs_op : (s.driveOutputs o).op = s.op := rfl
@[simp] theorem driveOutputs_a : (s.driveOutputs o).a = s.a := rfl
@[simp] theorem driveOutputs_b : (s.driveOutputs o).b = s.b := rfl
@[simp] theorem driveOutputs_result : (s.driveOutputs o).result = o.result := rfl
@[simp] theorem driveOutputs_status : (s.driveOutputs o).status = o.status := rfl
@[simp] theorem driveOutputs_draws :
    (s.driveOutputs o).draws = if o.status = statusCode .ok then s.draws else s.draws + 1 := rfl

@[simp] theorem outputs_result : s.outputs.result = s.result := rfl
@[simp] theorem outputs_status : s.outputs.status = s.status := rfl

/-- The word on the ports after a driver has applied one is that word (R40). -/
@[simp] theorem portWord_driveWord : (s.driveWord t).portWord = t := pack_fields t

/-- After a driver has applied a word, the block evaluates what it decodes to (R14, R49). -/
@[simp] theorem fetch_driveWord : fetch (s.driveWord t) = decode t := by simp [fetch]

end DriveInputs

end Sys2Proof.Machine
end

