-- ==== Sys2Proof/Laws/Ops.lean ====
section
/-! SUPPORT. What the shared operations can do, each said once. -/

namespace Sys2Proof.Machine

@[simp] theorem ok_result (v : Word) : (ok v).result = v := rfl
@[simp] theorem ok_status (v : Word) : (ok v).status = 0b00#2 := rfl
@[simp] theorem raise_result (e : Status) (d : Word) : (raise e d).result = d := rfl
@[simp] theorem raise_status (e : Status) (d : Word) : (raise e d).status = statusCode e := rfl
@[simp] theorem statusCode_ok : statusCode .ok = 0b00#2 := rfl
@[simp] theorem statusCode_precond : statusCode .precond = 0b01#2 := rfl
@[simp] theorem statusCode_illegal : statusCode .illegal = 0b10#2 := rfl

/-- A consumer reads back every code that is driven (R100). -/
@[simp] theorem statusOfCode_statusCode (e : Status) : statusOfCode (statusCode e) = some e := by cases e <;> decide

/-- Every evaluation completes, and in one way (R100, R104). -/
theorem evaluate_eq_next_iff (f : Word → Outputs) (s s' : State) :
    evaluate f s = .next s' ↔ s' = s.driveOutputs (f (Config.freeResult s.draws)) := by
  simp [evaluate, eq_comm]

/-- An evaluation that completes OK reads no draw and changes the outputs alone (R10). -/
theorem evaluate_ok {f : Word → Outputs} {s : State} {v : Word} (h : f (Config.freeResult s.draws) = ok v) :
    evaluate f s = .next { s with result := v, status := 0b00#2 } := by
  simp [evaluate, h, State.driveOutputs, ok]

/-- An evaluation that reports a condition puts one draw on `result` and uses it up (R9). -/
theorem evaluate_raise {f : Word → Outputs} {s : State} {e : Status} (he : e ≠ .ok)
    (h : f (Config.freeResult s.draws) = raise e (Config.freeResult s.draws)) :
    evaluate f s =
      .next { s with result := Config.freeResult s.draws, status := statusCode e, draws := s.draws + 1 } := by
  have hne : statusCode e ≠ 0b00#2 := by cases e <;> first | exact absurd rfl he | decide
  simp [evaluate, h, State.driveOutputs, raise, hne]

end Sys2Proof.Machine
end

