-- ==== Sys2Proof/Laws/PerInstr.lean ====
section
/-! SUPPORT. Statements made per instruction, one lemma per constructor. `OpField`: the encoding of an instruction carries the op value of
its row in `T[67:64]` (R41, R45, R46). -/

namespace Sys2Proof.Laws.OpField

/-- The op field of the encoding is the row's op value. -/
def Statement (i : Instr) : Prop := opField (encode i) = i.opcode

theorem bwu (min max : Word) : Statement (.bwu min max) := opField_pack _ _ _
theorem bws (min max : Word) : Statement (.bws min max) := opField_pack _ _ _
theorem popcnt (x : Word) : Statement (.popcnt x) := opField_pack _ _ _
theorem log2 (x : Word) : Statement (.log2 x) := opField_pack _ _ _
theorem clz (x : Word) : Statement (.clz x) := opField_pack _ _ _
theorem zzenc (n : Word) : Statement (.zzenc n) := opField_pack _ _ _
theorem zzdec (u : Word) : Statement (.zzdec u) := opField_pack _ _ _
theorem seqgt (s1 s2 : SeqNum) : Statement (.seqgt s1 s2) := opField_pack _ _ _
theorem seqlt (s1 s2 : SeqNum) : Statement (.seqlt s1 s2) := opField_pack _ _ _
theorem reserved9 : Statement .reserved9 := opField_pack _ _ _
theorem reservedA : Statement .reservedA := opField_pack _ _ _
theorem reservedB : Statement .reservedB := opField_pack _ _ _
theorem reservedC : Statement .reservedC := opField_pack _ _ _
theorem reservedD : Statement .reservedD := opField_pack _ _ _
theorem reservedE : Statement .reservedE := opField_pack _ _ _
theorem reservedF : Statement .reservedF := opField_pack _ _ _

end Sys2Proof.Laws.OpField
end

