-- ==== Sys2Proof/Laws/Step.lean ====
section
/-! SUPPORT. What one evaluation can do, said once: for exec, for step and for a driver's act. -/

namespace Sys2Proof.Machine

/-- The sixteen op values (R41). -/
theorem op_cases (op : OpBits) :
    op = 0x0#4 ∨ op = 0x1#4 ∨ op = 0x2#4 ∨ op = 0x3#4 ∨ op = 0x4#4 ∨ op = 0x5#4 ∨ op = 0x6#4 ∨ op = 0x7#4 ∨
      op = 0x8#4 ∨ op = 0x9#4 ∨ op = 0xA#4 ∨ op = 0xB#4 ∨ op = 0xC#4 ∨ op = 0xD#4 ∨ op = 0xE#4 ∨ op = 0xF#4 := by
  revert op; decide

/-- What an output function of this block can be: OK with one value whatever the draw, or one condition with the draw (R9, R10). -/
def OkOrRaise (f : Word → Outputs) : Prop := (∃ v, ∀ d, f d = ok v) ∨ (∃ e, e ≠ Status.ok ∧ ∀ d, f d = raise e d)

theorem okOrRaise_ok (v : Word) : OkOrRaise (fun _ => ok v) := .inl ⟨v, fun _ => rfl⟩

theorem okOrRaise_guarded (c : Bool) (v : Word) : OkOrRaise (fun d => if c then raise .precond d else ok v) := by
  cases c
  · exact .inl ⟨v, fun _ => rfl⟩
  · exact .inr ⟨.precond, by decide, fun _ => rfl⟩

theorem okOrRaise_illegal : OkOrRaise illegalOutputs := .inr ⟨.illegal, by decide, fun _ => rfl⟩

/-- Every arm of `eval` is such a function (R10). -/
theorem eval_okOrRaise (op : OpBits) (a b : Word) : OkOrRaise (eval op a b) := by
  rcases op_cases op with h | h | h | h | h | h | h | h | h | h | h | h | h | h | h | h <;> subst h
  all_goals first
    | exact okOrRaise_ok _
    | exact okOrRaise_guarded _ _
    | exact okOrRaise_illegal

/-- Every instruction's evaluation is `evaluate` of such a function (R9, R10). -/
theorem exec_is_evaluate (i : Instr) : ∃ f : Word → Outputs, (∀ s, exec i s = evaluate f s) ∧ OkOrRaise f := by
  cases i with
  | bwu min max => exact ⟨_, fun _ => rfl, okOrRaise_guarded _ _⟩
  | bws min max => exact ⟨_, fun _ => rfl, okOrRaise_guarded _ _⟩
  | popcnt x => exact ⟨_, fun _ => rfl, okOrRaise_ok _⟩
  | log2 x => exact ⟨_, fun _ => rfl, okOrRaise_guarded _ _⟩
  | clz x => exact ⟨_, fun _ => rfl, okOrRaise_ok _⟩
  | zzenc n => exact ⟨_, fun _ => rfl, okOrRaise_ok _⟩
  | zzdec u => exact ⟨_, fun _ => rfl, okOrRaise_ok _⟩
  | seqgt s1 s2 => exact ⟨_, fun _ => rfl, okOrRaise_ok _⟩
  | seqlt s1 s2 => exact ⟨_, fun _ => rfl, okOrRaise_ok _⟩
  | reserved9 => exact ⟨_, fun _ => rfl, okOrRaise_illegal⟩
  | reservedA => exact ⟨_, fun _ => rfl, okOrRaise_illegal⟩
  | reservedB => exact ⟨_, fun _ => rfl, okOrRaise_illegal⟩
  | reservedC => exact ⟨_, fun _ => rfl, okOrRaise_illegal⟩
  | reservedD => exact ⟨_, fun _ => rfl, okOrRaise_illegal⟩
  | reservedE => exact ⟨_, fun _ => rfl, okOrRaise_illegal⟩
  | reservedF => exact ⟨_, fun _ => rfl, okOrRaise_illegal⟩

/-- An evaluation from any state completes, and either is OK with one value for all states, or reports one condition for all states. -/
theorem exec_cases (i : Instr) :
    (∃ v, ∀ s, exec i s = .next { s with result := v, status := 0b00#2 }) ∨
      (∃ e, e ≠ Status.ok ∧ ∀ s, exec i s =
        .next { s with result := Config.freeResult s.draws, status := statusCode e, draws := s.draws + 1 }) := by
  obtain ⟨f, hf, ⟨v, hv⟩ | ⟨e, he, hr⟩⟩ := exec_is_evaluate i
  · exact .inl ⟨v, fun s => (hf s).trans (evaluate_ok (hv _))⟩
  · exact .inr ⟨e, he, fun s => (hf s).trans (evaluate_raise he (hr _))⟩

/-- On the ports' op value, what the ports decode to has the meaning of `eval`'s arm: one evaluation is `evaluate` of `eval` at the present
inputs. -/
theorem step_eq_evaluate (s : State) : step s = evaluate (eval s.op s.a s.b) s := by
  have key : ∀ op : OpBits, exec (decode (pack op s.b s.a)) s = evaluate (eval op s.a s.b) s := by
    intro op
    have h := op_cases op
    simp only [decode, opField_pack, aField_pack, bField_pack]
    rcases h with h | h | h | h | h | h | h | h | h | h | h | h | h | h | h | h <;> subst h <;> rfl
  exact key s.op

/-- Applying a word evaluates what it decodes to on the driven ports (R14, R49). -/
theorem applyWord_eq (t : TWord) (s : State) : applyWord t s = exec (decode t) (s.driveWord t) := by
  rw [applyWord, step, fetch_driveWord]

/-- A driver's last word is applied in a state that the words before it lead to. -/
theorem applyWords_append_one (t : TWord) :
    ∀ (ts : List TWord) (s : State), ∃ m, applyWords ts s = .next m ∧ applyWords (ts ++ [t]) s = applyWord t m := by
  have completes (u : TWord) (s : State) : ∃ m, applyWord u s = .next m := by
    rw [applyWord_eq]
    rcases exec_cases (decode u) with ⟨v, hv⟩ | ⟨e, -, hr⟩
    · exact ⟨_, hv _⟩
    · exact ⟨_, hr _⟩
  intro ts
  induction ts with
  | nil =>
    intro s
    obtain ⟨m, hm⟩ := completes t s
    exact ⟨s, rfl, by simp [applyWords, hm]⟩
  | cons u ts ih =>
    intro s
    obtain ⟨m, hm⟩ := completes u s
    obtain ⟨m', h1, h2⟩ := ih m
    exact ⟨m', by simp [applyWords, hm, h1], by simp [applyWords, hm, h2]⟩

end Sys2Proof.Machine
end

