-- ==== Sys2Proof/Tests/Slice0.lean ====
section
/-! SUPPORT. Tests. Words and expected outputs are those of spec/95_test_vectors.md, or of the corner cases and examples of the rule named;
a `result` beside a status that is not OK is never compared. Then a witness for the hypotheses of each obligation. -/

namespace Sys2Proof.Tests

open Sys2Proof.Machine

/-! ### Well-formedness: each check refuses an ill-formed term -/

theorem test_wf_word : isTransactionWord (2 ^ 68 - 1) = true ∧ isTransactionWord (2 ^ 68) = false := by decide
theorem test_wf_literal : literalFits (2 ^ 32 - 1) = true ∧ literalFits (-(2 ^ 31)) = true ∧ literalFits (2 ^ 32) = false ∧
    literalFits (-(2 ^ 31) - 1) = false := by decide
theorem test_wf_status : isStatusCode 0b10#2 = true ∧ isStatusCode 0b11#2 = false ∧ statusOfCode 0b11#2 = none := by decide

/-! ### Decoding: one word per row, written from R40 and R45 -/

/-- R61's example. -/
theorem test_decode_bwu : decodeTableWord 72 0x0_000003ED_000003E8 = some (.bwu 1000#32 1005#32) := by decide
/-- R62's example. -/
theorem test_decode_bws : decodeTableWord 72 0x1_0000000A_FFFFFFF6 = some (.bws 0xFFFFFFF6#32 10#32) := by decide
/-- L2.3, `b` ignored. -/
theorem test_decode_popcnt : decodeTableWord 72 0x2_FFFFFFFF_00000003 = some (.popcnt 3#32) := by decide
/-- R71's example. -/
theorem test_decode_log2 : decodeTableWord 72 0x3_00000000_12345678 = some (.log2 0x12345678#32) := by decide
/-- R72's example. -/
theorem test_decode_clz : decodeTableWord 72 0x4_00000000_12345678 = some (.clz 0x12345678#32) := by decide
/-- R80's example. -/
theorem test_decode_zzenc : decodeTableWord 72 0x5_00000000_FFFFFFC0 = some (.zzenc 0xFFFFFFC0#32) := by decide
/-- R81's example. -/
theorem test_decode_zzdec : decodeTableWord 72 0x6_00000000_0000007E = some (.zzdec 0x7E#32) := by decide
/-- L2.8, `a[31:16]` ignored. -/
theorem test_decode_seqgt : decodeTableWord 72 0x7_FFFF0000_00010001 = some (.seqgt 1#16 0#16) := by decide
/-- R92's example. -/
theorem test_decode_seqlt : decodeTableWord 72 0x8_00000064_0000FFDC = some (.seqlt 65500#16 100#16) := by decide
/-- L2.10 and R46: op 9 to F, operands ignored. -/
theorem test_decode_reserved : [0x9_00000000_00000000, 0xA_00000001_00000000, 0xB_00000000_00000002, 0xC_00000005_00000005,
      0xD_FFFFFFFF_00000000, 0xE_00000000_FFFFFFFF, 0xF_00000002_00000001].map (decodeTableWord 72) =
    [some .reserved9, some .reservedA, some .reservedB, some .reservedC, some .reservedD, some .reservedE, some .reservedF] := by
  decide
/-- R40: a bit above bit 67 makes no transaction word. -/
theorem test_decode_too_long : decodeTableWord 72 0x10_00000000_00000000 = none := by decide
/-- R50: an omitted operand 2 is `b = 0`; S16's word. -/
theorem test_encode : encode (.seqlt 0#16 1#16) = 0x8_00000001_00000000#68 ∧ encode (.clz 1#32) = 0x4_00000000_00000001#68 := by decide

/-! ### One evaluation of each operation, from the word a driver applies after reset -/

/-- The outputs one step gives when the word is on the ports. -/
def outputsOf (w : Nat) : Option Outputs :=
  match step (State.reset.withFetchWord 72 w) with
  | .next s => some s.outputs
  | .fault _ => none
  | .refused _ => none

/-- The status one step gives. -/
def statusOf (w : Nat) : Option StatusBits := (outputsOf w).map Outputs.status

/-- R61: `max - min = 2^k` gives `k + 1`, and the largest difference 32. -/
theorem test_bwu : outputsOf 0x0_00000100_00000000 = some ⟨9#32, 0#2⟩ ∧ outputsOf 0x0_FFFFFFFF_00000000 = some ⟨32#32, 0#2⟩ := by decide
/-- S9. -/
theorem test_bwu_precond : statusOf 0x0_00000063_00000064 = some 1#2 := by decide
/-- L2.2: symmetric range, and -1 to 0. -/
theorem test_bws : outputsOf 0x1_0000000A_FFFFFFF6 = some ⟨5#32, 0#2⟩ ∧ outputsOf 0x1_00000000_FFFFFFFF = some ⟨1#32, 0#2⟩ := by decide
/-- L2.2: `0 > -1`. -/
theorem test_bws_precond : statusOf 0x1_FFFFFFFF_00000000 = some 1#2 := by decide
/-- L2.3. -/
theorem test_popcnt : outputsOf 0x2_00000000_DEADBEEF = some ⟨24#32, 0#2⟩ ∧ outputsOf 0x2_00000000_FFFFFFFF = some ⟨32#32, 0#2⟩ := by decide
/-- L2.4. -/
theorem test_log2 : outputsOf 0x3_00000000_12345678 = some ⟨28#32, 0#2⟩ ∧ outputsOf 0x3_00000000_80000000 = some ⟨31#32, 0#2⟩ := by decide
/-- S8. -/
theorem test_log2_precond : statusOf 0x3_00000000_00000000 = some 1#2 := by decide
/-- L2.5. -/
theorem test_clz : outputsOf 0x4_00000000_00000000 = some ⟨32#32, 0#2⟩ ∧ outputsOf 0x4_00000000_00010000 = some ⟨15#32, 0#2⟩ := by decide
/-- L2.6. -/
theorem test_zzenc : outputsOf 0x5_00000000_C0000000 = some ⟨0x7FFFFFFF#32, 0#2⟩ ∧
    outputsOf 0x5_00000000_80000000 = some ⟨0xFFFFFFFF#32, 0#2⟩ := by decide
/-- L2.7. -/
theorem test_zzdec : outputsOf 0x6_00000000_0000007F = some ⟨0xFFFFFFC0#32, 0#2⟩ ∧
    outputsOf 0x6_00000000_80000000 = some ⟨0x40000000#32, 0#2⟩ := by decide
/-- L2.8: the boundary, s1 larger and s1 smaller (C1). -/
theorem test_seqgt_boundary : outputsOf 0x7_00000000_00008000 = some ⟨1#32, 0#2⟩ ∧
    outputsOf 0x7_00008000_00000000 = some ⟨0#32, 0#2⟩ := by decide
/-- L2.8: past half, and the ignored upper bits. -/
theorem test_seqgt_wrap : outputsOf 0x7_00008001_00000000 = some ⟨1#32, 0#2⟩ ∧
    outputsOf 0x7_FFFF0000_00000001 = some ⟨1#32, 0#2⟩ := by decide
/-- L2.9. -/
theorem test_seqlt : outputsOf 0x8_00000064_0000FFDC = some ⟨1#32, 0#2⟩ ∧ outputsOf 0x8_00000000_00008000 = some ⟨0#32, 0#2⟩ := by decide
/-- L2.10: every reserved op completes with ILLEGAL. -/
theorem test_reserved : [0x9_00000000_00000000, 0xA_00000000_00000000, 0xB_00000000_00000000, 0xC_00000005_00000005,
      0xD_00000000_00000000, 0xE_00000000_00000000, 0xF_00000002_00000001].map statusOf = List.replicate 7 (some 2#2) := by decide
/-- R21 to R26 on P4's word, at units whose unspecified outputs are all ones. -/
theorem test_units : coreFromUnits 0x3#4 0x00F00000#32 0#32 ⟨0x3F#6, 0x1F#5⟩ 0#32 = ⟨23#32, 0#2⟩ ∧
    (unitPorts 0x4#4 0x00F00000#32 0#32 ⟨0x3F#6, 0x1F#5⟩).bitWidth.bits = 0x3F#6 := by decide

/-! ### Assembler text: lines of spec/95_test_vectors.md L3 -/

/-- P1's first line. -/
theorem test_asm_bws : assembleLine "      BWS   -10, 10      ; field width, rule R62".toList = .ok (some 0x1_0000000A_FFFFFFF6#68) := by decide
/-- P2's first line, with its label. -/
theorem test_asm_label : assembleLine "rx1:  SEQGT 2, 65530     ; accept".toList = .ok (some 0x7_0000FFFA_00000002#68) := by decide
/-- P3's last line, and P4's first. -/
theorem test_asm_word : assembleLine "      .word 0x9_00000000_00000000".toList = .ok (some 0x9_00000000_00000000#68) ∧
    assembleLine "POPCNT 0x00F00000".toList = .ok (some 0x2_00000000_00F00000#68) := by decide
/-- R50: a literal that does not fit, an unknown mnemonic (R51), an operand 2 that R44 does not give, a comment alone. -/
theorem test_asm_errors : assembleLine "CLZ 4294967296".toList = .error .operandDoesNotFit ∧
    assembleLine "GT 1, 0".toList = .error .unknownMnemonic ∧ assembleLine "CLZ 1, 0".toList = .error .noSecondOperand ∧
    assembleLine "  ; driver".toList = .ok none ∧ assembleLine "CLZ 1x".toList = .error .notALine := by decide

/-! ### Witnesses: hypotheses of the obligations that some state and operands meet -/

/-- The reset state with a word on the ports. -/
def driven (t : TWord) : State := State.reset.driveWord t

/-- EveryStepKeepsInvariant, EvaluationIsIdempotent (OK), StatusReportsExactlyTheCauses, DriverReadsValueOnlyWhenOk (an OK step). -/
theorem witness_step_ok : step (driven 0x2_00000000_00000001#68) =
    .next { driven 0x2_00000000_00000001#68 with result := 1#32, status := 0b00#2 } := by rfl
/-- The same statements, and StepIsEvalOfPresentInputs' last clause, for a step that is not OK. -/
theorem witness_step_precond : step (driven 0x3_00000000_00000000#68) =
    .next { driven 0x3_00000000_00000000#68 with result := Config.freeResult 0, status := 0b01#2, draws := 1 } ∧
    (eval 0x3#4 0#32 0#32 5#32).status ≠ 0b00#2 := ⟨by rfl, by decide⟩
/-- StepRunsDecodedPorts, OnlyTransactionWordsDecode: a width and a number that meet the bounds. -/
theorem witness_widths : 68 ≤ 72 ∧ 68 ≤ 68 ∧ 2 ^ 68 ≤ 0x10_00000000_00000000 := by decide
/-- OutputsIgnoreHistory: different histories, one last word. -/
theorem witness_history :
    applyWords ([] ++ [0x4_00000000_00000001#68]) State.reset =
      .next { driven 0x4_00000000_00000001#68 with result := 31#32 } ∧
    applyWords ([0x7_00000000_00000001#68] ++ [0x4_00000000_00000001#68]) State.reset =
      .next { driven 0x4_00000000_00000001#68 with result := 31#32 } := ⟨by rfl, by rfl⟩
/-- ExecChangesOnlyOutputs, UnspecifiedResultIsAFreshDraw. -/
theorem witness_exec_precond : exec (.log2 0#32) State.reset =
    .next { State.reset with result := Config.freeResult 0, status := 0b01#2, draws := 1 } ∧ (0b01#2 : StatusBits) ≠ 0b00#2 :=
  ⟨by rfl, by decide⟩
/-- IgnoredBitsChangeNothing, DecodeIsTotalAndUnambiguous: two different words that agree on the bits read. -/
theorem witness_ignored : 0x7_FFFF0000_00000001#68 &&& readMask (opField 0x7_FFFF0000_00000001#68) =
      0x7_00000000_FFFF0001#68 &&& readMask (opField 0x7_FFFF0000_00000001#68) ∧
    0x7_FFFF0000_00000001#68 ≠ 0x7_00000000_FFFF0001#68 ∧
    opField 0x7_FFFF0000_00000001#68 = opField 0x7_00000000_FFFF0001#68 := by decide
/-- BwuGivesUnsignedRangeWidth, BwsGivesSignedRangeWidth: both sides of each check, at its boundary. -/
theorem witness_ranges : (5#32).toNat ≤ (5#32).toNat ∧ (100#32).toNat > (99#32).toNat ∧
    (0xFFFFFFFB#32).toInt ≤ (0xFFFFFFFB#32).toInt ∧ (0#32).toInt > (0xFFFFFFFF#32).toInt := by decide
/-- BitwidthIsLeastWidth's last clause. -/
theorem witness_bitwidth : (0xFFFFFFFF#32).toNat < 2 ^ 32 := by decide
/-- WidthHoldsEveryOffset, BwuAndBwsAgree: both operations OK on one range, with a value inside and a positive width. -/
theorem witness_width_ok :
    exec (.bwu 1000#32 1005#32) State.reset = .next { State.reset with result := 3#32 } ∧
    exec (.bws 1000#32 1005#32) State.reset = .next { State.reset with result := 3#32 } ∧
    (1000#32).toNat ≤ (1005#32).toNat ∧ (1000#32).toInt ≤ (1005#32).toInt ∧ 0 < (3#32).toNat :=
  ⟨by rfl, by rfl, by decide, by decide, by decide⟩
/-- Log2GivesHighestSetBit, ClzCountsLeadingZeros, PopcountLzLaws, SmearGivesLog2AndClz, WidthTiedToLeadingZeros, PopcountLzUnitPorts:
a zero word, a nonzero one, a power of two, and an index above the highest set bit. -/
theorem witness_words : (0#32 : Word) = 0#32 ∧ (1#32 : Word) ≠ 0#32 ∧ (0x80000000#32).toNat = 2 ^ 31 ∧
    highestSetBit 1#32 < 31 ∧ highestSetBit 0x80000000#32 < 32 := by decide
/-- ZzencResultBits, ZzdecResultBits: the ends of the index ranges. -/
theorem witness_bits : (1 ≤ 1 ∧ 1 ≤ 31) ∧ (1 ≤ 31 ∧ 31 ≤ 31) ∧ 0 ≤ 30 ∧ 30 ≤ 30 := by decide
/-- SeqgtBoundaryRule, SeqgtDecidesElapsedOrder: the ends of the ranges. -/
theorem witness_seq_ranges : 0 ≤ 32767 ∧ 32767 ≤ 32767 ∧ (65536 + 32767 ≤ 65536 + 32767 ∧ 65536 ≤ 65536 + 32767 + 32767) := by decide
/-- SeqgtOrderLaws: two distinct values with both evaluations' next states. -/
theorem witness_order : (1#16 : SeqNum) ≠ 0#16 ∧
    exec (.seqgt 1#16 0#16) State.reset = .next { State.reset with result := 1#32 } ∧
    exec (.seqlt 1#16 0#16) State.reset = .next { State.reset with result := 0#32 } := ⟨by decide, by rfl, by rfl⟩
/-- ReservedOpReportsIllegal: the ends of the reserved range, and a reserved instruction. -/
theorem witness_reserved : 0x9 ≤ (0x9#4).toNat ∧ 0x9 ≤ (0xF#4).toNat ∧ Instr.reservedC.isReserved = true := by decide
/-- BitWidthUnitPorts: both values of `range_err` under both settings of `signed_bounds`. -/
theorem witness_unit_range : (bitWidthCalculator 0#32 0xFFFFFFFF#32 false 0#6).rangeErr = false ∧
    (bitWidthCalculator 0#32 0xFFFFFFFF#32 true 0#6).rangeErr = true ∧
    (bitWidthCalculator 0xFFFFFFFF#32 0#32 false 0#6).rangeErr = true ∧
    (bitWidthCalculator 0xFFFFFFFF#32 0#32 true 0#6).rangeErr = false := by decide
/-- InterleavingDoesNotMatter: two copies, the second one named. -/
theorem witness_copies : [State.reset, driven 0x2_00000000_00000001#68][1]? = some (driven 0x2_00000000_00000001#68) := by decide
/-- AssemblyGivesTransactionWords: literals at the ends of the field, one past each end, and a row of each list. -/
theorem witness_literals : (-2147483648 : Int) ≤ -2147483648 ∧ (4294967295 : Int) ≤ 4294967295 ∧ (-2147483649 : Int) < -2147483648 ∧
    (4294967295 : Int) < 4294967296 ∧ ("SEQLT", 0x8#4) ∈ [("BWU", 0x0#4), ("BWS", 0x1#4), ("SEQGT", 0x7#4), ("SEQLT", 0x8#4)] ∧
    ("ZZDEC", 0x6#4) ∈ [("POPCNT", 0x2#4), ("LOG2", 0x3#4), ("CLZ", 0x4#4), ("ZZENC", 0x5#4), ("ZZDEC", 0x6#4)] := by decide

end Sys2Proof.Tests
end

section
/-! SUPPORT. Proofs of the statements of spec/00_scope.md: a step is the block's total function (R10), and an unspecified result is a
draw (R9). -/

namespace Sys2Proof.Machine

/-- Status code 0 stands for OK alone (R18). -/
@[simp] theorem statusCode_eq_zero_iff (e : Status) : statusCode e = 0b00#2 ↔ e = .ok := by cases e <;> decide

/-- R10: the draw never decides the status, is not read when the status is OK, and is the result otherwise. -/
theorem OkOrRaise.draw_only_as_unspecified_result {f : Word → Outputs} (hf : OkOrRaise f) (d draw : Word) :
    (f d).status = (f draw).status ∧ ((f d).status = 0b00#2 → f d = f draw) ∧
      ((f d).status ≠ 0b00#2 → (f d).result = d) := by
  obtain ⟨v, hv⟩ | ⟨e, he, hr⟩ := hf
  · simp [hv]
  · simp [hr, he]

/-- Settles O4: a step is `evaluate` of `eval`, and `eval` is OK with one value or raises one condition, whatever the draw. -/
theorem stepIsEvalOfPresentInputs : Obligations.StepIsEvalOfPresentInputs := by
  intro s
  exact ⟨Config.freeResult s.draws, _, step_eq_evaluate s,
    fun d => (eval_okOrRaise s.op s.a s.b).draw_only_as_unspecified_result d _⟩

/-- Settles O9, by the two ways an evaluation can end: OK, which the hypothesis excludes, or a raised condition. -/
theorem unspecifiedResultIsAFreshDraw : Obligations.UnspecifiedResultIsAFreshDraw := by
  intro i s s' hexec hstatus
  obtain ⟨v, hok⟩ | ⟨e, -, hraise⟩ := exec_cases i
  · cases (hok s).symm.trans hexec
    exact absurd rfl hstatus
  · cases (hraise s).symm.trans hexec
    exact ⟨rfl, rfl⟩

end Sys2Proof.Machine
end

section
/-! SUPPORT. Facts that the proofs of spec/10_state.md's statements share: what the checks of R101 decide, how wide a result is (R17), and
what the units' ports carry (R21, R22). -/

namespace Sys2Proof.Machine

/-! ### The preconditions, read as comparisons of numbers -/

/-- BWU's check compares the unsigned values (R61). -/
@[simp] theorem bwuRangeError_iff (min max : Word) : bwuRangeError min max = true ↔ min.toNat > max.toNat :=
  decide_eq_true_iff

/-- BWS's check compares the two's-complement values (R62). -/
@[simp] theorem bwsRangeError_iff (min max : Word) : bwsRangeError min max = true ↔ min.toInt > max.toInt := by
  rw [bwsRangeError, decide_eq_true_iff, s32_eq_toInt, s32_eq_toInt]

/-- LOG2's check holds at zero alone (R71). -/
@[simp] theorem log2Error_iff (x : Word) : log2Error x = true ↔ x = 0#32 := by
  rw [log2Error, decide_eq_true_iff, u32, BitVec.toNat_eq]
  rfl

/-! ### The width of an OK result (R17) -/

/-- A count of bits of a word stays within `result[5:0]`. -/
theorem toNat_countResult_lt {n : Nat} (h : n ≤ 32) : (countResult n).toNat < 2 ^ 6 := by
  rw [toNat_countResult (by omega)]
  omega

/-- A boolean stays within `result[0]`. -/
theorem toNat_boolResult_lt (c : Bool) : (boolResult c).toNat < 2 ^ 1 := by cases c <;> decide

/-- A guarded count that is OK has passed its check, so `result` is the count and not the draw. -/
theorem toNat_guarded_count_lt {c : Bool} {n : Nat} {d : Word} (h : n ≤ 32)
    (hok : (if c then raise .precond d else ok (countResult n)).status = 0b00#2) :
    (if c then raise .precond d else ok (countResult n)).result.toNat < 2 ^ 6 := by
  cases c with
  | false => exact toNat_countResult_lt h
  | true => simp at hok

/-- An OK result fits the bits that its operation can set. -/
theorem toNat_eval_result_lt (op : OpBits) (a b d : Word) (hok : (eval op a b d).status = 0b00#2) :
    (eval op a b d).result.toNat < 2 ^ resultBits op := by
  rcases op_cases op with rfl | rfl | rfl | rfl | rfl | rfl | rfl | rfl | rfl | hreserved
  · exact toNat_guarded_count_lt (bitwidth32_le _) hok
  · exact toNat_guarded_count_lt (bitwidth32_le _) hok
  · exact toNat_countResult_lt (onesCount_le a)
  · exact toNat_guarded_count_lt ((highestSetBit_le a).trans (by decide)) hok
  · exact toNat_countResult_lt (leadingZeros_le a)
  · exact (zigzag a).isLt
  · exact (unzigzag a).isLt
  · exact toNat_boolResult_lt _
  · exact toNat_boolResult_lt _
  · have hillegal : statusCode .illegal = 0b00#2 := by
      rcases hreserved with rfl | rfl | rfl | rfl | rfl | rfl | rfl <;> exact hok
    cases (statusCode_eq_zero_iff _).1 hillegal

/-! ### What one output function can drive -/

/-- The code `2'b11` is never driven (R100). -/
theorem statusCode_ne_three (e : Status) : statusCode e ≠ 0b11#2 := by cases e <;> decide

/-- The status of an evaluation is a code that is driven (R18, R100). -/
theorem OkOrRaise.status_ne_three {f : Word → Outputs} (hf : OkOrRaise f) (d : Word) : (f d).status ≠ 0b11#2 := by
  obtain ⟨v, hv⟩ | ⟨e, -, hr⟩ := hf
  · rw [hv]
    exact statusCode_ne_three .ok
  · rw [hr]
    exact statusCode_ne_three e

/-- The value on `result` serves as the draw that put it there (R9, R20): beside OK no draw is read, and otherwise it is the draw. -/
theorem OkOrRaise.result_serves_as_draw {f : Word → Outputs} (hf : OkOrRaise f) (d : Word) : f (f d).result = f d := by
  obtain ⟨v, hv⟩ | ⟨e, -, hr⟩ := hf
  · rw [hv, hv]
  · simp [hr]

/-- Behind one guard, two operations agree as soon as their values agree where the check passes. -/
theorem guarded_congr {c : Bool} {d v w : Word} (h : c = false → v = w) :
    (if c then raise .precond d else ok v) = if c then raise .precond d else ok w := by
  cases c with
  | false => rw [h rfl]
  | true => rfl

/-! ### The ports of the units -/

/-- A narrow unit output, zero-extended, is the count it carries (R8, R17). -/
theorem zext32_eq_countResult {w n : Nat} {v : BitVec w} (h : v.toNat = n) : zext32 v = countResult n := by
  rw [zext32, countResult, ← h, BitVec.ofNat_toNat]

/-- `bits` carries the draw while `range_err` is 1, and the width of R60 while it is 0 (R21). -/
theorem bitWidthCalculator_bits (min max : Word) (signedBounds : Bool) (draw : BitVec 6) :
    (bitWidthCalculator min max signedBounds draw).bits =
      if (bitWidthCalculator min max signedBounds draw).rangeErr then draw
      else BitVec.ofNat 6 (bitwidth32 (max - min)) := rfl

/-- While `range_err` is 0, `bits` is the width of R60, which 6 bits hold (R21). -/
theorem toNat_bitWidthCalculator_bits {min max : Word} {signedBounds : Bool} {draw : BitVec 6}
    (h : (bitWidthCalculator min max signedBounds draw).rangeErr = false) :
    (bitWidthCalculator min max signedBounds draw).bits.toNat = bitwidth32 (max - min) := by
  have hle := bitwidth32_le (max - min)
  rw [bitWidthCalculator_bits, h, if_neg Bool.false_ne_true, BitVec.toNat_ofNat, Nat.mod_eq_of_lt (by omega)]

/-- `pop` is the population count, which 6 bits hold (R22). -/
theorem toNat_popcountLzUnit_pop (x : Word) (draw : BitVec 5) : (popcountLzUnit x draw).pop.toNat = onesCount x := by
  have hle := onesCount_le x
  exact Nat.mod_eq_of_lt (by omega)

/-- `clz` is the leading-zero count, which 6 bits hold (R22). -/
theorem toNat_popcountLzUnit_clz (x : Word) (draw : BitVec 5) : (popcountLzUnit x draw).clz.toNat = leadingZeros x := by
  have hle := leadingZeros_le x
  exact Nat.mod_eq_of_lt (by omega)

/-- `log2` carries the draw while `log2_err` is 1, and the highest set bit's index while it is 0 (R22). -/
theorem popcountLzUnit_log2 (x : Word) (draw : BitVec 5) :
    (popcountLzUnit x draw).log2 =
      if (popcountLzUnit x draw).log2Err then draw else BitVec.ofNat 5 (highestSetBit x) := rfl

/-- While `log2_err` is 0, `log2` is the index of the highest set bit, which 5 bits hold (R22). -/
theorem toNat_popcountLzUnit_log2 {x : Word} {draw : BitVec 5} (h : (popcountLzUnit x draw).log2Err = false) :
    (popcountLzUnit x draw).log2.toNat = highestSetBit x := by
  have hle := highestSetBit_le x
  rw [popcountLzUnit_log2, h, if_neg Bool.false_ne_true, BitVec.toNat_ofNat, Nat.mod_eq_of_lt (by omega)]

/-- `log2_err` marks the zero word (R22). -/
theorem popcountLzUnit_log2Err_iff (x : Word) (draw : BitVec 5) : (popcountLzUnit x draw).log2Err = true ↔ x = 0#32 :=
  log2Error_iff x

end Sys2Proof.Machine
end

section
/-! SUPPORT. Proofs of the statements of spec/10_state.md: the invariant (R17, R18, R20), the frame of an evaluation (R11, R15, R16), and the
unit view (R21 to R26). -/

namespace Sys2Proof.Machine

/-- What a step drives is an output of `eval` at input ports that it leaves alone, so each part of Inv is a fact about `eval`. -/
theorem inv_driveOutputs_eval (s : State) (d : Word) : Inv (s.driveOutputs (eval s.op s.a s.b d)) where
  settled := ((eval_okOrRaise s.op s.a s.b).result_serves_as_draw d).symm
  statusLegal := (eval_okOrRaise s.op s.a s.b).status_ne_three d
  resultNarrow := toNat_eval_result_lt s.op s.a s.b d

/-- Settles O2: a step is `evaluate` of `eval`, so its next state is one that `inv_driveOutputs_eval` speaks of. -/
theorem everyStepKeepsInvariant : Obligations.EveryStepKeepsInvariant := by
  intro s s' hstep
  rw [step_eq_evaluate, evaluate_eq_next_iff] at hstep
  subst hstep
  exact inv_driveOutputs_eval s _

/-- Settles O41, by the two checks read as comparisons, and by what `bits` carries beside each value of `range_err`. -/
theorem bitWidthUnitPorts : Obligations.BitWidthUnitPorts := by
  intro min max draw
  refine ⟨bwuRangeError_iff min max, bwsRangeError_iff min max,
    fun signedBounds => ⟨toNat_bitWidthCalculator_bits, fun herr => ?_⟩⟩
  rw [bitWidthCalculator_bits, if_pos herr]

/-- Settles O42: no count is cut by its port's width, and the highest set bit is floor(log2). -/
theorem popcountLzUnitPorts : Obligations.PopcountLzUnitPorts := by
  intro x draw
  refine ⟨toNat_popcountLzUnit_pop x draw, toNat_popcountLzUnit_clz x draw, popcountLzUnit_log2Err_iff x draw,
    fun hx => ?_, fun hx => ?_⟩
  · have herr : (popcountLzUnit x draw).log2Err = false :=
      Bool.eq_false_iff.2 (mt (popcountLzUnit_log2Err_iff x draw).1 hx)
    rw [toNat_popcountLzUnit_log2 herr, highestSetBit_eq_log2 hx]
  · rw [popcountLzUnit_log2, if_pos ((popcountLzUnit_log2Err_iff x draw).2 hx)]

/-- Settles O44, op value by op value: a narrow unit output, zero-extended, is the operation's count wherever its error output is 0; the
other units drive the operation's own value, and a reserved op selects none. -/
theorem unitsComposeToOperationRules : Obligations.UnitsComposeToOperationRules := by
  refine fun op a b d draw => ⟨rfl, ?_⟩
  rcases op_cases op with rfl | rfl | rfl | rfl | rfl | rfl | rfl | rfl | rfl | hreserved
  · exact guarded_congr fun h => zext32_eq_countResult (toNat_bitWidthCalculator_bits h)
  · exact guarded_congr fun h => zext32_eq_countResult (toNat_bitWidthCalculator_bits h)
  · exact congrArg ok (zext32_eq_countResult (toNat_popcountLzUnit_pop a d.log2))
  · exact guarded_congr fun h => zext32_eq_countResult (toNat_popcountLzUnit_log2 h)
  · exact congrArg ok (zext32_eq_countResult (toNat_popcountLzUnit_clz a d.log2))
  · rfl
  · rfl
  · rfl
  · rfl
  · rcases hreserved with rfl | rfl | rfl | rfl | rfl | rfl | rfl <;> rfl

/-- Settles O1: the reset state is what a step from it leads to, and every step leads to a state that meets Inv (O2). -/
theorem resetMeetsInvariant : Obligations.ResetMeetsInvariant := by
  have hstep : step State.reset = .next State.reset := (step_eq_evaluate _).trans (evaluate_ok rfl)
  exact ⟨everyStepKeepsInvariant _ _ hstep, hstep⟩

/-- Settles O8, by the two ways an evaluation can end: the inputs stay in both, and only a raised condition moves the counter. -/
theorem execChangesOnlyOutputs : Obligations.ExecChangesOnlyOutputs := by
  intro i s s' hexec
  obtain ⟨v, hok⟩ | ⟨e, he, hraise⟩ := exec_cases i
  · cases (hok s).symm.trans hexec
    exact ⟨rfl, rfl, rfl, fun _ => rfl⟩
  · cases (hraise s).symm.trans hexec
    exact ⟨rfl, rfl, rfl, fun hstatus => absurd ((statusCode_eq_zero_iff e).1 hstatus) he⟩

/-- Settles O43: each of the four operations is OK with its unit's output, whatever the draw. -/
theorem unitOutputsAreOperationResults : Obligations.UnitOutputsAreOperationResults :=
  ⟨fun _ _ => ⟨evaluate_ok rfl, evaluate_ok rfl⟩, fun _ _ _ => ⟨evaluate_ok rfl, evaluate_ok rfl⟩⟩

end Sys2Proof.Machine
end

section
/-! SUPPORT. Proofs of the statements of spec/20_memory.md: repeating an evaluation (R35), and interleaving evaluations over several
copies (R36, R110). -/

namespace Sys2Proof.Machine

/-! ### A driver's words, one by one -/

/-- Applying a word completes from every state (R104, R105). -/
theorem applyWord_completes (t : TWord) (s : State) : ∃ s', applyWord t s = .next s' := by
  rw [applyWord, step_eq_evaluate]
  exact ⟨_, rfl⟩

/-- After a first word that completes, the words behind it are applied to the state it leads to. -/
theorem applyWords_cons {t : TWord} {s m : State} (happly : applyWord t s = .next m) (ts : List TWord) :
    applyWords (t :: ts) s = applyWords ts m := by
  simp only [applyWords, happly]

/-! ### One entry of a schedule -/

/-- An entry that names copy `k` gives it its next word. -/
@[simp] theorem wordsFor_cons_same (k : Nat) (t : TWord) (rest : List (Nat × TWord)) :
    wordsFor k ((k, t) :: rest) = t :: wordsFor k rest := if_pos rfl

/-- An entry that names another copy gives copy `k` no word. -/
theorem wordsFor_cons_other {j k : Nat} (hjk : j ≠ k) (t : TWord) (rest : List (Nat × TWord)) :
    wordsFor k ((j, t) :: rest) = wordsFor k rest := if_neg hjk

/-- The copy that an evaluation names ends where that evaluation leads. -/
theorem applyAt_same {copies : List State} {k : Nat} {t : TWord} {s m : State} (hk : copies[k]? = some s)
    (happly : applyWord t s = .next m) : (applyAt k t copies)[k]? = some m := by
  have hlt : k < copies.length := (List.getElem?_eq_some_iff.1 hk).1
  simp only [applyAt, hk, happly, List.getElem?_set_self hlt]

/-- An evaluation leaves every copy but the one it names as it is (R110). -/
theorem applyAt_other {j k : Nat} (hjk : j ≠ k) (t : TWord) (copies : List State) :
    (applyAt j t copies)[k]? = copies[k]? := by
  cases hj : copies[j]? with
  | none => simp only [applyAt, hj]
  | some s =>
    obtain ⟨m, happly⟩ := applyWord_completes t s
    simp only [applyAt, hj, happly, List.getElem?_set_ne hjk]

/-! ### The statements -/

/-- Settles O7, by the two ways an evaluation can end, which depend on the fetched instruction alone; a step leaves the input ports as they
are, so the same instruction is fetched again. -/
theorem evaluationIsIdempotent : Obligations.EvaluationIsIdempotent := by
  intro s s' hstep
  obtain ⟨v, hok⟩ | ⟨e, he, hraise⟩ := exec_cases (fetch s)
  · cases (hok s).symm.trans hstep
    have hagain := hok { s with result := v, status := 0b00#2 }
    refine ⟨fun _ => hagain, fun s'' hstep' => ?_⟩
    cases hagain.symm.trans hstep'
    rfl
  · cases (hraise s).symm.trans hstep
    refine ⟨fun hstatus => absurd ((statusCode_eq_zero_iff e).1 hstatus) he, fun s'' hstep' => ?_⟩
    cases (hraise _).symm.trans hstep'
    rfl

/-- Settles O45, by induction on the schedule: an entry for copy `k` is the next of its own words, and any other entry leaves it alone. -/
theorem interleavingDoesNotMatter : Obligations.InterleavingDoesNotMatter := by
  intro schedule
  induction schedule with
  | nil => exact fun copies k s hk => ⟨s, rfl, hk⟩
  | cons entry rest ih =>
    obtain ⟨j, t⟩ := entry
    intro copies k s hk
    by_cases hjk : j = k
    · subst hjk
      obtain ⟨m, happly⟩ := applyWord_completes t s
      rw [wordsFor_cons_same, applyWords_cons happly]
      exact ih (applyAt j t copies) j m (applyAt_same hk happly)
    · rw [wordsFor_cons_other hjk]
      exact ih (applyAt j t copies) k s ((applyAt_other hjk t copies).trans hk)

end Sys2Proof.Machine
end

section
/-! SUPPORT. Facts that the proofs of spec/30_encoding.md's statements share: a word under a mask, the round trips of decoder and
encoder, and what the rows of the opcode table have in common (R40 to R49). -/

namespace Sys2Proof

/-! ### A transaction word under a mask -/

/-- A mask acts on each field of T by itself (R40). -/
theorem pack_and_pack (op op' : OpBits) (b b' a a' : Word) :
    pack op b a &&& pack op' b' a' = pack (op &&& op') (b &&& b') (a &&& a') := by
  apply BitVec.eq_of_getLsbD_eq
  intro i hi
  simp only [BitVec.getLsbD_and, getLsbD_pack]
  split_ifs <;> rfl

/-- Clearing the upper half of an operand leaves what SEQGT and SEQLT read of it (R44). -/
theorem and_lowMask_eq_seqOperand (v : Word) : v &&& 0x0000FFFF#32 = seqOperand (low16 v) := by
  apply BitVec.eq_of_getLsbD_eq
  intro i hi
  have hmask : 0x0000FFFF#32 = (BitVec.allOnes 16).setWidth 32 := by decide
  rw [hmask, BitVec.getLsbD_and, BitVec.getLsbD_setWidth, BitVec.getLsbD_allOnes, seqOperand, low16]
  simp [hi, Bool.and_comm]

/-- The mask of an op that reads both operands keeps every bit (R42, R43). -/
theorem pack_and_readsBoth (op : OpBits) (b a : Word) :
    pack op b a &&& 0xF_FFFFFFFF_FFFFFFFF#68 = pack op b a :=
  BitVec.and_allOnes

/-- The mask of an op that reads operand 1 alone clears `b` (R43). -/
theorem pack_and_readsA (op : OpBits) (b a : Word) :
    pack op b a &&& 0xF_00000000_FFFFFFFF#68 = pack op 0#32 a := by
  calc pack op b a &&& 0xF_00000000_FFFFFFFF#68
      = pack op b a &&& pack (BitVec.allOnes 4) 0#32 (BitVec.allOnes 32) := rfl
    _ = pack op 0#32 a := by
      rw [pack_and_pack, BitVec.and_allOnes, BitVec.and_zero, BitVec.and_allOnes]

/-- The mask of SEQGT and SEQLT clears the upper half of each operand (R42, R43). -/
theorem pack_and_readsLow16 (op : OpBits) (b a : Word) :
    pack op b a &&& 0xF_0000FFFF_0000FFFF#68 = pack op (seqOperand (low16 b)) (seqOperand (low16 a)) := by
  calc pack op b a &&& 0xF_0000FFFF_0000FFFF#68
      = pack op b a &&& pack (BitVec.allOnes 4) 0x0000FFFF#32 0x0000FFFF#32 := rfl
    _ = pack op (seqOperand (low16 b)) (seqOperand (low16 a)) := by
      rw [pack_and_pack, BitVec.and_allOnes, and_lowMask_eq_seqOperand, and_lowMask_eq_seqOperand]

/-- The mask of the opcode table's rows, and of a reserved op, keeps `op` alone (R45, R46). -/
theorem pack_and_readsOp (op : OpBits) (b a : Word) :
    pack op b a &&& 0xF_00000000_00000000#68 = pack op 0#32 0#32 := by
  calc pack op b a &&& 0xF_00000000_00000000#68
      = pack op b a &&& pack (BitVec.allOnes 4) 0#32 0#32 := rfl
    _ = pack op 0#32 0#32 := by
      rw [pack_and_pack, BitVec.and_allOnes, BitVec.and_zero, BitVec.and_zero]

/-- A word's op field is among the bits that its op reads (R41). -/
theorem opField_and_readMask (t : TWord) (op : OpBits) : opField (t &&& readMask op) = opField t := by
  have hmask : opField (readMask op) = BitVec.allOnes 4 := by revert op; decide
  have hand : opField (t &&& readMask op) = opField t &&& opField (readMask op) := BitVec.extractLsb'_and
  rw [hand, hmask, BitVec.and_allOnes]

/-! ### The round trips -/

/-- Decoding reads back what the encoder wrote, row by row (R45, R46). -/
@[simp] theorem decode_encode (i : Instr) : decode (encode i) = i := by
  cases i <;> simp [encode, decode]

/-- Encoding again keeps the fields of a word that its op reads and clears the rest, op value by op value (R42, R43; log 8). -/
theorem encode_decode_pack (op : OpBits) (b a : Word) :
    encode (decode (pack op b a)) = pack op b a &&& readMask op := by
  have hop := Machine.op_cases op
  simp only [decode, opField_pack, aField_pack, bField_pack]
  rcases hop with rfl | rfl | rfl | rfl | rfl | rfl | rfl | rfl | rfl | hreserved
  · exact (pack_and_readsBoth _ b a).symm
  · exact (pack_and_readsBoth _ b a).symm
  · exact (pack_and_readsA _ b a).symm
  · exact (pack_and_readsA _ b a).symm
  · exact (pack_and_readsA _ b a).symm
  · exact (pack_and_readsA _ b a).symm
  · exact (pack_and_readsA _ b a).symm
  · exact (pack_and_readsLow16 _ b a).symm
  · exact (pack_and_readsLow16 _ b a).symm
  · rcases hreserved with rfl | rfl | rfl | rfl | rfl | rfl | rfl <;> exact (pack_and_readsOp _ b a).symm

/-- Encoding what a word decodes to clears exactly the bits that its op ignores (R42, R43; log 8). -/
theorem encode_decode (t : TWord) : encode (decode t) = t &&& readMask (opField t) := by
  have h := encode_decode_pack (opField t) (bField t) (aField t)
  rwa [pack_fields] at h

/-- The encoding of an instruction carries its row's op value (R41; `Laws.OpField`'s statement, for all rows). -/
@[simp] theorem opField_encode (i : Instr) : opField (encode i) = i.opcode := by
  cases i <;> exact opField_pack _ _ _

/-- A word decodes to an instruction of the row that its op field names (R45, R46, R49). -/
@[simp] theorem opcode_decode (t : TWord) : (decode t).opcode = opField t := by
  rw [← opField_encode, encode_decode, opField_and_readMask]

/-- Words that agree on the bits read decode alike: they agree on `op`, and encoding is one to one (R47). -/
theorem decode_eq_of_and_readMask_eq {t t' : TWord}
    (h : t &&& readMask (opField t) = t' &&& readMask (opField t)) : decode t = decode t' := by
  have hop : opField t = opField t' := by
    rw [← opField_and_readMask t (opField t), h, opField_and_readMask]
  have hencode : encode (decode t) = encode (decode t') := by
    rw [encode_decode, encode_decode, ← hop, h]
  rw [← decode_encode (decode t), hencode, decode_encode]

/-- Every transaction word is read from its number (R40). -/
theorem decodeNat_toNat (t : TWord) : decodeNat t.toNat = .ok (decode t) := by
  have hword : isTransactionWord t.toNat = true := decide_eq_true t.isLt
  rw [decodeNat, if_pos hword, BitVec.ofNat_toNat, BitVec.setWidth_eq]

/-- Numbering that has room for 68 bits cuts no transaction word (R40). -/
theorem toNat_mod_two_pow {nbits : Nat} (hbits : 68 ≤ nbits) (t : TWord) : t.toNat % 2 ^ nbits = t.toNat :=
  Nat.mod_eq_of_lt (t.isLt.trans_le (Nat.pow_le_pow_right (by decide) hbits))

/-! ### The rows of the opcode table -/

/-- Every row of the table matches on `T[67:64]` alone, against its own op value (R45, R46). -/
theorem row_mask_and_pattern : ∀ r ∈ opTable, r.mask = 0xF_00000000_00000000#68 ∧ r.pattern = pack (opField r.pattern) 0#32 0#32 := by
  decide

/-- A row covers exactly the words that carry its op value (R49). -/
theorem covers_iff_opField_eq {r : OpRow} (hr : r ∈ opTable) (t : TWord) :
    r.covers t = true ↔ opField t = opField r.pattern := by
  obtain ⟨hmask, hpattern⟩ := row_mask_and_pattern r hr
  have hand : t &&& r.mask = pack (opField t) 0#32 0#32 := by
    rw [hmask]
    simpa using pack_and_readsOp (opField t) (bField t) (aField t)
  rw [OpRow.covers, decide_eq_true_iff, hand, hpattern, opField_pack]
  exact ⟨fun h => by simpa using congrArg opField h, fun h => by rw [h]⟩

/-- No two rows share an op value (R45, R46). -/
theorem row_eq_of_opField_eq :
    ∀ r ∈ opTable, ∀ r' ∈ opTable, opField r'.pattern = opField r.pattern → r' = r := by
  decide

/-- Every instruction has a row, with its op value and its mnemonic (R45, R46). -/
theorem exists_row_of_instr (i : Instr) : ∃ r ∈ opTable, opField r.pattern = i.opcode ∧ i.mnemonic = r.mnemonic := by
  cases i <;> dsimp only [Instr.opcode, Instr.mnemonic] <;> decide

/-- The reserved instructions are those of the op values 9 to F (R46). -/
theorem isReserved_iff (i : Instr) : i.isReserved = true ↔ 0x9 ≤ i.opcode.toNat := by
  cases i <;> dsimp only [Instr.isReserved, Instr.opcode] <;> decide

end Sys2Proof
end

section
/-! SUPPORT. Facts that the proofs of spec/30_encoding.md's statements share about evaluations and assembler text: a reserved op's
evaluation (R46), and the literals and mnemonics of R50. -/

namespace Sys2Proof.Machine

/-- Every reserved instruction does `raise ILLEGAL()` and nothing else (R46). -/
theorem exec_reserved {i : Instr} (hi : i.isReserved = true) (s : State) :
    exec i s = .next { s with result := Config.freeResult s.draws, status := 0b10#2, draws := s.draws + 1 } := by
  have hraise : exec i s = evaluate illegalOutputs s := by
    cases i with
    | reserved9 | reservedA | reservedB | reservedC | reservedD | reservedE | reservedF => rfl
    | _ => cases hi
  rw [hraise]
  exact evaluate_raise (e := .illegal) (by decide) rfl

/-- A literal that fits stands for its two's-complement pattern (R50). -/
theorem operandPattern_of_fits {v : Int} (hlo : -2147483648 ≤ v) (hhi : v ≤ 4294967295) :
    operandPattern v = some (BitVec.ofInt 32 v) := by
  have hfits : literalFits v = true := by
    rw [literalFits, Bool.and_eq_true, decide_eq_true_iff, decide_eq_true_iff]
    omega
  rw [operandPattern, if_pos hfits]

/-- A literal outside the 32-bit field has no pattern (R50). -/
theorem operandPattern_of_not_fits {v : Int} (h : v < -2147483648 ∨ 4294967295 < v) : operandPattern v = none := by
  have hfits : ¬ literalFits v = true := by
    rw [literalFits, Bool.and_eq_true, decide_eq_true_iff, decide_eq_true_iff]
    omega
  rw [operandPattern, if_neg hfits]

section Assemble
variable {m : String} {op : OpBits} {x y : Int} {a b : Word}

/-- Two operands assemble to `{op, second, first}` (R50). -/
theorem assemble_two_operands (hop : opcodeOf m = some op) (h2 : hasOperand2 op = true)
    (hx : operandPattern x = some a) (hy : operandPattern y = some b) :
    assemble (.evaluation m x (some y)) = .ok (pack op b a) := by
  simp [assemble, hop, h2, hx, hy]

/-- An omitted operand 2 assembles as `b = 0` (R50). -/
theorem assemble_one_operand (hop : opcodeOf m = some op) (hx : operandPattern x = some a) :
    assemble (.evaluation m x none) = .ok (pack op 0#32 a) := by
  simp [assemble, hop, hx]

/-- An operand 1 that does not fit is rejected, whatever stands behind it (R50). -/
theorem assemble_first_does_not_fit (hop : opcodeOf m = some op) (hx : operandPattern x = none) (y? : Option Int) :
    assemble (.evaluation m x y?) = .error .operandDoesNotFit := by
  simp [assemble, hop, hx]

/-- An operand 2 that does not fit is rejected (R50). -/
theorem assemble_second_does_not_fit (hop : opcodeOf m = some op) (h2 : hasOperand2 op = true)
    (hx : operandPattern x = some a) (hy : operandPattern y = none) :
    assemble (.evaluation m x (some y)) = .error .operandDoesNotFit := by
  simp [assemble, hop, h2, hx, hy]

end Assemble

/-- The mnemonics of R45 whose operation R44 gives an operand 2, with their op values. -/
theorem opcodeOf_two_operands : ∀ p ∈ [("BWU", 0x0#4), ("BWS", 0x1#4), ("SEQGT", 0x7#4), ("SEQLT", 0x8#4)],
    opcodeOf p.1 = some p.2 ∧ hasOperand2 p.2 = true := by
  decide

/-- The mnemonics of R45 whose operation has operand 1 alone, with their op values. -/
theorem opcodeOf_one_operand :
    ∀ p ∈ [("POPCNT", 0x2#4), ("LOG2", 0x3#4), ("CLZ", 0x4#4), ("ZZENC", 0x5#4), ("ZZDEC", 0x6#4)],
      opcodeOf p.1 = some p.2 := by
  decide

end Sys2Proof.Machine
end

section
/-! SUPPORT. Proofs of the statements of spec/30_encoding.md: decoding and encoding (R40 to R49), reserved op values (R46), and assembler
text (R50, R51). -/

namespace Sys2Proof.Machine

/-- Settles O12, from the two round trips, each proved row by row. -/
theorem decodeAndEncodeAgree : Obligations.DecodeAndEncodeAgree := ⟨decode_encode, encode_decode⟩

/-- Settles O13: such words decode to one instruction, whose evaluation ends in one of two ways whatever the state. -/
theorem ignoredBitsChangeNothing : Obligations.IgnoredBitsChangeNothing := by
  intro t t' hmasked
  have hdecode := decode_eq_of_and_readMask_eq hmasked
  refine ⟨hdecode, fun s r r' happly happly' => ?_⟩
  rw [applyWord_eq] at happly
  rw [applyWord_eq, ← hdecode] at happly'
  obtain ⟨v, hok⟩ | ⟨e, he, hraise⟩ := exec_cases (decode t)
  · cases (hok _).symm.trans happly
    cases (hok _).symm.trans happly'
    exact ⟨rfl, fun _ => rfl⟩
  · cases (hraise _).symm.trans happly
    cases (hraise _).symm.trans happly'
    exact ⟨rfl, fun hstatus => absurd ((statusCode_eq_zero_iff e).1 hstatus) he⟩

/-- Settles O14: the row of the decoded instruction covers the word, since both carry its op field, and no other row has that op value. -/
theorem decodeIsTotalAndUnambiguous : Obligations.DecodeIsTotalAndUnambiguous := by
  intro t
  obtain ⟨r, hr, hop, hmnemonic⟩ := exists_row_of_instr (decode t)
  have hfield : opField t = opField r.pattern := by rw [hop, opcode_decode]
  refine ⟨⟨r, hr, (covers_iff_opField_eq hr t).2 hfield, hmnemonic, hop.symm, fun r' hr' hcovers => ?_⟩, ?_, ?_⟩
  · exact row_eq_of_opField_eq r hr r' hr' (((covers_iff_opField_eq hr' t).1 hcovers).symm.trans hfield)
  · rw [isReserved_iff, opcode_decode]
  · intro t' hop'
    rw [opcode_decode, opcode_decode, hop']

/-- Settles O15: the numbering cuts no transaction word, and the decoder's length check lets exactly those through. -/
theorem onlyTransactionWordsDecode : Obligations.OnlyTransactionWordsDecode := by
  refine ⟨fun i nbits hbits => ?_, fun w hw => ?_⟩
  · rw [decodeTableWord, toNat_mod_two_pow hbits, decodeNat_toNat, decode_encode]
  · have hlong : ¬ isTransactionWord w = true := by simpa [isTransactionWord] using hw
    rw [decodeNat, if_neg hlong]

/-- Settles O40: a reserved op on the ports decodes to a reserved instruction, and each of those raises ILLEGAL. -/
theorem reservedOpReportsIllegal : Obligations.ReservedOpReportsIllegal := by
  refine ⟨fun op a b s hop => ?_, fun i s hi => ⟨_, _, exec_reserved hi s⟩⟩
  have hreserved : (fetch (s.driveInputs op b a)).isReserved = true := by
    rw [isReserved_iff, fetch, opcode_decode, State.portWord, opField_pack]
    exact hop
  exact ⟨_, _, exec_reserved hreserved _⟩

/-- Settles O46: literals that fit have their patterns and others none, and each mnemonic has its op value. -/
theorem assemblyGivesTransactionWords : Obligations.AssemblyGivesTransactionWords := by
  intro x y hxlo hxhi hylo hyhi
  have hx := operandPattern_of_fits hxlo hxhi
  have hy := operandPattern_of_fits hylo hyhi
  refine ⟨fun m op hm => ?_, fun m op hm => ?_, fun z hz => ?_⟩
  · obtain ⟨hop, h2⟩ := opcodeOf_two_operands _ hm
    exact assemble_two_operands hop h2 hx hy
  · exact assemble_one_operand (opcodeOf_one_operand _ hm) hx
  · obtain ⟨hop, h2⟩ := opcodeOf_two_operands ("BWU", 0x0#4) (by decide)
    have hz' := operandPattern_of_not_fits hz
    exact ⟨assemble_first_does_not_fit hop hz' _, assemble_second_does_not_fit hop h2 hx hz'⟩

/-- Settles O3: a step fetches from the ports, where a driven word stands whole; a numbering of 68 bits or more cuts none of it. -/
theorem stepRunsDecodedPorts : Obligations.StepRunsDecodedPorts := by
  refine ⟨fun _ => rfl, fun s t => applyWord_eq t s, fun s t nbits hbits => ?_⟩
  rw [State.withFetchWord, toNat_mod_two_pow hbits, BitVec.ofNat_toNat, BitVec.setWidth_eq]

/-- Settles O16: each word's op and operand fields are the ones given, computed from its digits. -/
theorem specExampleWordsDecode : Obligations.SpecExampleWordsDecode := by
  refine ⟨?_, ?_, ?_, ?_, ?_, ?_⟩ <;> decide

/-- Settles O17: applying a word evaluates what it decodes to, and an encoding decodes back. -/
theorem encodedInstructionIsEvaluated : Obligations.EncodedInstructionIsEvaluated := by
  intro i s
  rw [applyWord_eq, decode_encode]

/-- Settles O39: SEQLT compares with its operands exchanged, and the two words differ in `T[67:64]`. -/
theorem seqltIsSeqgtExchanged : Obligations.SeqltIsSeqgtExchanged := by
  refine fun s1 s2 s => ⟨rfl, fun hwords => ?_⟩
  have hop := congrArg opField hwords
  simp [Instr.opcode] at hop

end Sys2Proof.Machine
end

section
/-! SUPPORT. Facts that the proofs of spec/40_bit_width.md's statements share: the width of R60 as the least one that holds its operand, the
exact difference that the 32-bit subtraction gives (R61, R62), and how a guarded evaluation ends. -/

namespace Sys2Proof.Machine

/-! ### The width of a difference (R60) -/

/-- The width in the library's logarithm. -/
theorem bitwidth32_eq_log2 (d : Word) : bitwidth32 d = if d.toNat = 0 then 0 else Nat.log2 d.toNat + 1 := by
  by_cases hd : d.toNat = 0
  · rw [bitwidth32, u32, if_pos hd, if_pos hd]
  · rw [bitwidth32, u32, if_neg hd, if_neg hd, floorLog2_eq_log2 (by omega) d.isLt]

/-- A width holds `d` exactly when it is no smaller than `bitwidth32 d`. -/
theorem bitwidth32_le_iff {d : Word} {w : Nat} : bitwidth32 d ≤ w ↔ d.toNat < 2 ^ w := by
  rw [bitwidth32_eq_log2]
  split
  next hd => simp [hd]
  next hd => rw [Nat.succ_le_iff, Nat.log2_lt hd]

/-- The same of the widths that are too small: bit `w` or a higher one is in use. -/
theorem lt_bitwidth32_iff {d : Word} {w : Nat} : w < bitwidth32 d ↔ 2 ^ w ≤ d.toNat := by
  rw [← not_le, bitwidth32_le_iff, not_lt]

theorem toNat_lt_two_pow_bitwidth32 (d : Word) : d.toNat < 2 ^ bitwidth32 d := bitwidth32_le_iff.1 le_rfl

/-- A nonzero operand takes all the bits of its width. -/
theorem two_pow_pred_bitwidth32_le {d : Word} (h : 0 < bitwidth32 d) : 2 ^ (bitwidth32 d - 1) ≤ d.toNat :=
  lt_bitwidth32_iff.1 (Nat.sub_one_lt_of_lt h)

@[simp] theorem bitwidth32_eq_zero_iff (d : Word) : bitwidth32 d = 0 ↔ d = 0#32 := by
  rw [← Nat.le_zero, bitwidth32_le_iff, Nat.pow_zero, Nat.lt_one_iff, BitVec.toNat_eq]
  rfl

/-- The full width is taken exactly when the top bit is set. -/
theorem bitwidth32_eq_32_iff (d : Word) : bitwidth32 d = 32 ↔ d.getLsbD 31 = true := by
  calc bitwidth32 d = 32
      ↔ 31 < bitwidth32 d := ⟨fun h => by omega, fun h => le_antisymm (bitwidth32_le d) h⟩
    _ ↔ 2 ^ 31 ≤ d.toNat := lt_bitwidth32_iff
    _ ↔ d.getLsbD 31 = true := by rw [BitVec.getLsbD_last (w := 32), decide_eq_true_iff]

/-- For a nonzero operand the width is one more than the index of the highest set bit (R66, R71). -/
theorem bitwidth32_eq_highestSetBit {d : Word} (h : d ≠ 0#32) : bitwidth32 d = highestSetBit d + 1 := by
  have hd : d.toNat ≠ 0 := fun e => h (BitVec.eq_of_toNat_eq e)
  rw [bitwidth32_eq_log2, if_neg hd, highestSetBit_eq_log2 h]

/-- Width and leading zeros share the 32 bits (R66, R72). -/
theorem bitwidth32_add_leadingZeros (d : Word) : bitwidth32 d + leadingZeros d = 32 := by
  by_cases hd : d = 0#32
  · subst hd
    rfl
  · have hbit := highestSetBit_le d
    rw [bitwidth32_eq_highestSetBit hd, leadingZeros, if_neg hd]
    omega

/-! ### A width on the result port (R17) -/

@[simp] theorem toNat_countResult_bitwidth32 (d : Word) : (countResult (bitwidth32 d)).toNat = bitwidth32 d :=
  toNat_countResult ((bitwidth32_le d).trans_lt (by decide))

/-- A value below `2^6` leaves `result[31:6]` at 0. -/
theorem extractLsb'_upper_eq_zero {r : Word} (h : r.toNat < 2 ^ 6) : r.extractLsb' 6 26 = 0#26 := by
  apply BitVec.eq_of_toNat_eq
  rw [BitVec.extractLsb'_toNat, Nat.shiftRight_eq_div_pow, Nat.div_eq_of_lt h]
  rfl

/-- What R63 says of `result` beside an OK status, with either reading of the bounds. -/
theorem countResult_bitwidth32_sub (min max : Word) :
    (countResult (bitwidth32 (max - min))).toNat ≤ 32 ∧
      (countResult (bitwidth32 (max - min))).extractLsb' 6 26 = 0#26 ∧
      (countResult (bitwidth32 (max - min)) = 0#32 ↔ min = max) := by
  refine ⟨?_, extractLsb'_upper_eq_zero (toNat_countResult_lt (bitwidth32_le _)), ?_⟩
  · rw [toNat_countResult_bitwidth32]
    exact bitwidth32_le _
  · rw [BitVec.toNat_eq, toNat_countResult_bitwidth32, BitVec.toNat_zero, bitwidth32_eq_zero_iff, eq_comm (a := min)]
    exact sub_eq_zero

/-! ### The 32-bit difference is the exact one (R61, R62) -/

/-- Bounds in signed order differ by less than `2^32`, so the wrapped difference is the exact one. -/
theorem toNat_sub_of_toInt_le {min max : Word} (h : min.toInt ≤ max.toInt) :
    ((max - min).toNat : Int) = max.toInt - min.toInt := by
  have hmin := min.isLt
  have hmax := max.isLt
  rw [BitVec.toInt_eq_toNat_cond, BitVec.toInt_eq_toNat_cond] at h ⊢
  rw [BitVec.toNat_sub]
  split_ifs at h ⊢ <;> omega

/-! ### How an evaluation behind a precondition ends (R9, R101) -/

section Guarded
variable {f : Word → Outputs} {c : Bool} {v : Word} (hf : ∀ d, f d = if c then raise .precond d else ok v)
include hf

theorem evaluate_guarded_ok (hc : c = false) (s : State) :
    evaluate f s = .next { s with result := v, status := 0b00#2 } :=
  evaluate_ok (by rw [hf, hc, if_neg Bool.false_ne_true])

theorem evaluate_guarded_precond (hc : c = true) (s : State) :
    evaluate f s =
      .next { s with result := Config.freeResult s.draws, status := 0b01#2, draws := s.draws + 1 } :=
  evaluate_raise (e := .precond) (by decide) (by rw [hf, if_pos hc])

/-- PRECOND tells that the check failed. -/
theorem evaluate_guarded_precond_iff {s s' : State} (h : evaluate f s = .next s') : s'.status = 0b01#2 ↔ c = true := by
  cases hc : c with
  | false =>
    cases (evaluate_guarded_ok hf hc s).symm.trans h
    simp
  | true =>
    cases (evaluate_guarded_precond hf hc s).symm.trans h
    simp

/-- OK tells that the check passed, and then `result` is the operation's value. -/
theorem evaluate_guarded_of_ok {s s' : State} (h : evaluate f s = .next s') (hstatus : s'.status = 0b00#2) :
    c = false ∧ s'.result = v := by
  cases hc : c with
  | false =>
    cases (evaluate_guarded_ok hf hc s).symm.trans h
    exact ⟨rfl, rfl⟩
  | true =>
    cases (evaluate_guarded_precond hf hc s).symm.trans h
    simp at hstatus

end Guarded

/-- BWU's check passes exactly on bounds in unsigned order (R61). -/
theorem bwuRangeError_eq_false_iff (min max : Word) : bwuRangeError min max = false ↔ min.toNat ≤ max.toNat := by
  rw [← Bool.not_eq_true, bwuRangeError_iff, not_lt]

/-- BWS's check passes exactly on bounds in signed order (R62). -/
theorem bwsRangeError_eq_false_iff (min max : Word) : bwsRangeError min max = false ↔ min.toInt ≤ max.toInt := by
  rw [← Bool.not_eq_true, bwsRangeError_iff, not_lt]

section Exec
variable {min max : Word}

/-- BWU on bounds in unsigned order (R61). -/
theorem exec_bwu_ok (h : min.toNat ≤ max.toNat) (s : State) :
    exec (.bwu min max) s = .next { s with result := countResult (bitwidth32 (max - min)), status := 0b00#2 } :=
  evaluate_guarded_ok (fun _ => rfl) ((bwuRangeError_eq_false_iff min max).2 h) s

/-- BWS on bounds in signed order (R62). -/
theorem exec_bws_ok (h : min.toInt ≤ max.toInt) (s : State) :
    exec (.bws min max) s = .next { s with result := countResult (bitwidth32 (max - min)), status := 0b00#2 } :=
  evaluate_guarded_ok (fun _ => rfl) ((bwsRangeError_eq_false_iff min max).2 h) s

/-- BWU on bounds out of unsigned order (R61, R101). -/
theorem exec_bwu_precond (h : min.toNat > max.toNat) (s : State) :
    exec (.bwu min max) s =
      .next { s with result := Config.freeResult s.draws, status := 0b01#2, draws := s.draws + 1 } :=
  evaluate_guarded_precond (fun _ => rfl) ((bwuRangeError_iff min max).2 h) s

/-- An OK status of BWU: the bounds are in order, and `result` is the width of their difference (R61). -/
theorem exec_bwu_of_ok {s s' : State} (h : exec (.bwu min max) s = .next s') (hstatus : s'.status = 0b00#2) :
    min.toNat ≤ max.toNat ∧ s'.result = countResult (bitwidth32 (max - min)) :=
  (evaluate_guarded_of_ok (fun _ => rfl) h hstatus).imp_left (bwuRangeError_eq_false_iff min max).1

/-- BWS on bounds out of signed order (R62, R101). -/
theorem exec_bws_precond (h : min.toInt > max.toInt) (s : State) :
    exec (.bws min max) s =
      .next { s with result := Config.freeResult s.draws, status := 0b01#2, draws := s.draws + 1 } :=
  evaluate_guarded_precond (fun _ => rfl) ((bwsRangeError_iff min max).2 h) s

/-- An OK status of BWS: the bounds are in order, and `result` is the width of their difference (R62). -/
theorem exec_bws_of_ok {s s' : State} (h : exec (.bws min max) s = .next s') (hstatus : s'.status = 0b00#2) :
    min.toInt ≤ max.toInt ∧ s'.result = countResult (bitwidth32 (max - min)) :=
  (evaluate_guarded_of_ok (fun _ => rfl) h hstatus).imp_left (bwsRangeError_eq_false_iff min max).1

end Exec

/-- LOG2 of a nonzero word (R71). -/
theorem exec_log2_ok {x : Word} (h : x ≠ 0#32) (s : State) :
    exec (.log2 x) s = .next { s with result := countResult (highestSetBit x), status := 0b00#2 } :=
  evaluate_guarded_ok (fun _ => rfl) (Bool.eq_false_iff.2 (mt (log2Error_iff x).1 h)) s

/-- CLZ has no precondition (R72). -/
theorem exec_clz (x : Word) (s : State) :
    exec (.clz x) s = .next { s with result := countResult (leadingZeros x), status := 0b00#2 } :=
  evaluate_ok rfl

end Sys2Proof.Machine
end

section
/-! SUPPORT. Proofs of the statements of spec/40_bit_width.md: the width function (R60), BWU and BWS (R61 to R64), and their tie to LOG2
and CLZ (R66). -/

namespace Sys2Proof.Machine

/-- Settles O20, from the width's defining property: a width holds `d` exactly when it is no smaller. -/
theorem bitwidthIsLeastWidth : Obligations.BitwidthIsLeastWidth := fun d =>
  ⟨bitwidth32_eq_log2 d, bitwidth32_le d, bitwidth32_eq_32_iff d, toNat_lt_two_pow_bitwidth32 d,
    fun _ => bitwidth32_le_iff.2⟩

/-- Settles O18: on bounds in unsigned order the 32-bit difference is the exact one; on others the check fails. -/
theorem bwuGivesUnsignedRangeWidth : Obligations.BwuGivesUnsignedRangeWidth := by
  refine fun min max s => ⟨decode_encode (.bwu min max), fun hle => ?_, fun hgt => ⟨_, _, exec_bwu_precond hgt s⟩⟩
  rw [exec_bwu_ok hle, bitwidth32_eq_log2, BitVec.toNat_sub_of_le hle]
  rfl

/-- Settles O19: on bounds in signed order the 32-bit difference is the exact one; on others the check fails. -/
theorem bwsGivesSignedRangeWidth : Obligations.BwsGivesSignedRangeWidth := by
  refine fun min max s => ⟨decode_encode (.bws min max), fun hle => ?_, fun hgt => ⟨_, _, exec_bws_precond hgt s⟩⟩
  rw [exec_bws_ok hle, bitwidth32_eq_log2, ← toNat_sub_of_toInt_le hle, Int.toNat_natCast]
  simp only [Int.natCast_eq_zero]
  rfl

/-- Settles O21: no offset exceeds the difference of the bounds, whose width `result` is. -/
theorem widthHoldsEveryOffset : Obligations.WidthHoldsEveryOffset := by
  refine fun min max s s' hstatus => ⟨fun hexec => ?_, fun hexec => ?_⟩
  · obtain ⟨hle, hresult⟩ := exec_bwu_of_ok hexec hstatus
    have hdiff : (max - min).toNat = max.toNat - min.toNat := BitVec.toNat_sub_of_le hle
    obtain ⟨h32, hupper, hzero⟩ := countResult_bitwidth32_sub min max
    rw [hresult]
    refine ⟨h32, hupper, hzero, ?_⟩
    rw [toNat_countResult_bitwidth32, ← hdiff]
    refine ⟨fun v _ hv => ?_, two_pow_pred_bitwidth32_le⟩
    have hlt := toNat_lt_two_pow_bitwidth32 (max - min)
    omega
  · obtain ⟨hle, hresult⟩ := exec_bws_of_ok hexec hstatus
    have hdiff := toNat_sub_of_toInt_le hle
    obtain ⟨h32, hupper, hzero⟩ := countResult_bitwidth32_sub min max
    rw [hresult]
    refine ⟨h32, hupper, hzero, ?_⟩
    rw [toNat_countResult_bitwidth32, ← hdiff]
    refine ⟨fun v _ hv => ?_, fun hpos => by exact_mod_cast two_pow_pred_bitwidth32_le hpos⟩
    have hlt : ((max - min).toNat : Int) < 2 ^ bitwidth32 (max - min) := by
      exact_mod_cast toNat_lt_two_pow_bitwidth32 (max - min)
    omega

/-- Settles O22: both give the width of the one 32-bit difference, and each is PRECOND exactly when its own check fails. -/
theorem bwuAndBwsAgree : Obligations.BwuAndBwsAgree := by
  refine fun a b s t s' t' hbwu hbws => ⟨fun hs ht => ?_, ?_, ?_⟩
  · rw [(exec_bwu_of_ok hbwu hs).2, (exec_bws_of_ok hbws ht).2]
  · exact (evaluate_guarded_precond_iff (fun _ => rfl) hbwu).trans (bwuRangeError_iff a b)
  · exact (evaluate_guarded_precond_iff (fun _ => rfl) hbws).trans (bwsRangeError_iff a b)

/-- Settles O23: the width is one more than the highest set bit's index, and the leading zeros are the rest of the 32 bits; on the range
`[0, d]` the difference is `d`. -/
theorem widthTiedToLeadingZeros : Obligations.WidthTiedToLeadingZeros := by
  have hclz (d : Word) : bitwidth32 d = 32 - leadingZeros d ∧ leadingZeros d = 32 - bitwidth32 d := by
    have hsum := bitwidth32_add_leadingZeros d
    omega
  refine ⟨fun d => ⟨(hclz d).1, bitwidth32_eq_highestSetBit⟩, fun d s => ⟨bitwidth32 d, bitwidth32_le d, ?_, ?_, ?_⟩⟩
  · have hbwu := exec_bwu_ok (min := 0#32) (max := d) (Nat.zero_le _) s
    rwa [BitVec.sub_zero] at hbwu
  · rw [exec_clz, (hclz d).2]
    rfl
  · intro hd
    rw [exec_log2_ok hd, bitwidth32_eq_highestSetBit hd]
    exact ⟨Nat.le_add_left 1 _, rfl⟩

end Sys2Proof.Machine
end

section
/-! SUPPORT. Facts that the proofs of spec/41_popcount_lz.md's statements share: the set of set bits of a word, whose size is the population
count (R70), and how POPCNT and LOG2 end. -/

namespace Sys2Proof.Machine

/-! ### The set of set bits -/

/-- The indices that R70 counts. -/
def setBits (x : Word) : Finset (Fin 32) := Finset.univ.filter fun i : Fin 32 => x.getLsbD i = true

@[simp] theorem mem_setBits {x : Word} {i : Fin 32} : i ∈ setBits x ↔ x.getLsbD i = true :=
  Finset.mem_filter_univ i

theorem onesCount_eq_card_setBits (x : Word) : onesCount x = (setBits x).card := onesCount_eq_card x

/-- A word is determined by its set bits. -/
theorem setBits_injective : Function.Injective setBits := by
  refine fun x y hxy => BitVec.eq_of_getLsbD_eq fun i hi => Bool.eq_iff_iff.2 ?_
  simpa only [mem_setBits] using Finset.ext_iff.1 hxy ⟨i, hi⟩

@[simp] theorem setBits_zero : setBits 0#32 = ∅ := by
  ext i
  simp

@[simp] theorem setBits_not (x : Word) : setBits (~~~x) = (setBits x)ᶜ := by
  ext i
  simp

@[simp] theorem setBits_twoPow (i : Fin 32) : setBits (BitVec.twoPow 32 i) = {i} := by
  ext j
  simp [Fin.ext_iff, eq_comm]

/-! ### The population count (R73) -/

theorem onesCount_eq_zero_iff (x : Word) : onesCount x = 0 ↔ x = 0#32 := by
  rw [onesCount_eq_card_setBits, Finset.card_eq_zero, ← setBits_zero, setBits_injective.eq_iff]

theorem onesCount_not (x : Word) : onesCount (~~~x) = 32 - onesCount x := by
  rw [onesCount_eq_card_setBits, onesCount_eq_card_setBits, setBits_not, Finset.card_compl, Fintype.card_fin]

/-- The powers of two that a word can hold are the words with one bit set. -/
theorem exists_toNat_eq_two_pow_iff (x : Word) : (∃ k : Nat, x.toNat = 2 ^ k) ↔ ∃ i : Fin 32, x = BitVec.twoPow 32 i := by
  constructor
  · rintro ⟨k, hk⟩
    have hk32 : k < 32 := (Nat.pow_lt_pow_iff_right (by decide)).1 (hk ▸ x.isLt)
    refine ⟨⟨k, hk32⟩, BitVec.eq_of_toNat_eq ?_⟩
    rw [BitVec.toNat_twoPow_of_lt hk32, hk]
  · rintro ⟨i, rfl⟩
    exact ⟨i, BitVec.toNat_twoPow_of_lt i.isLt⟩

theorem onesCount_eq_one_iff (x : Word) : onesCount x = 1 ↔ ∃ k : Nat, x.toNat = 2 ^ k := by
  rw [onesCount_eq_card_setBits, Finset.card_eq_one, exists_toNat_eq_two_pow_iff]
  refine exists_congr fun i => ?_
  rw [← setBits_twoPow, setBits_injective.eq_iff]

/-! ### The highest set bit (R71, R72) -/

theorem leadingZeros_eq {x : Word} (h : x ≠ 0#32) : leadingZeros x = 31 - highestSetBit x := if_neg h

theorem ne_zero_of_toNat_eq_two_pow {x : Word} {k : Nat} (h : x.toNat = 2 ^ k) : x ≠ 0#32 := by
  rintro rfl
  exact (Nat.two_pow_pos k).ne h

theorem highestSetBit_of_toNat_eq_two_pow {x : Word} {k : Nat} (h : x.toNat = 2 ^ k) : highestSetBit x = k := by
  rw [highestSetBit_eq_log2 (ne_zero_of_toNat_eq_two_pow h), h, Nat.log2_two_pow]

/-! ### The smeared word (R74) -/

/-- Bit `i` of `y` is set exactly when one of the `d` bits of `x` from `i` upwards is. -/
def SmearedBy (d : Nat) (x y : Word) : Prop :=
  ∀ i, y.getLsbD i = true ↔ ∃ j, i ≤ j ∧ j < i + d ∧ x.getLsbD j = true

theorem smearedBy_one (x : Word) : SmearedBy 1 x x := by
  refine fun i => ⟨fun hi => ⟨i, le_rfl, Nat.lt_succ_self i, hi⟩, ?_⟩
  rintro ⟨j, hij, hji, hj⟩
  rwa [show i = j by omega]

/-- One round of R74's construction doubles the window. -/
theorem SmearedBy.double {d : Nat} {x y : Word} (h : SmearedBy d x y) : SmearedBy (d + d) x (y ||| (y >>> d)) := by
  intro i
  rw [BitVec.getLsbD_or, BitVec.getLsbD_ushiftRight, Bool.or_eq_true, h, h]
  constructor
  · rintro (⟨j, hij, hji, hj⟩ | ⟨j, hij, hji, hj⟩)
    · exact ⟨j, hij, by omega, hj⟩
    · exact ⟨j, by omega, by omega, hj⟩
  · rintro ⟨j, hij, hji, hj⟩
    by_cases hnear : j < i + d
    · exact .inl ⟨j, hij, hnear, hj⟩
    · exact .inr ⟨j, by omega, by omega, hj⟩

/-- R74's five rounds make a window of the whole word. -/
theorem smearedBy_smear (x : Word) : SmearedBy 32 x (smear x) :=
  (smearedBy_one x).double.double.double.double.double

/-- The smeared word has ones exactly at and below the highest set bit (R74). -/
theorem getLsbD_smear {x : Word} (h : x ≠ 0#32) (i : Nat) : (smear x).getLsbD i = true ↔ i ≤ highestSetBit x := by
  obtain ⟨hset, habove⟩ := highestSetBit_spec h
  have hle := highestSetBit_le x
  rw [smearedBy_smear x]
  constructor
  · rintro ⟨j, hij, -, hj⟩
    by_contra hlt
    rw [habove j (by omega)] at hj
    cases hj
  · exact fun hi => ⟨highestSetBit x, hi, by omega, hset⟩

theorem onesCount_smear {x : Word} (h : x ≠ 0#32) : onesCount (smear x) = highestSetBit x + 1 := by
  let k : Fin 32 := ⟨highestSetBit x, Nat.lt_succ_of_le (highestSetBit_le x)⟩
  have hbits : setBits (smear x) = Finset.Iic k := by
    ext i
    rw [mem_setBits, getLsbD_smear h, Finset.mem_Iic, Fin.le_def]
  rw [onesCount_eq_card_setBits, hbits, Fin.card_Iic]

/-! ### How POPCNT and LOG2 end -/

/-- POPCNT has no precondition (R70). -/
theorem exec_popcnt (x : Word) (s : State) :
    exec (.popcnt x) s = .next { s with result := countResult (onesCount x), status := 0b00#2 } :=
  evaluate_ok rfl

/-- LOG2 of zero (R71, R101). -/
theorem exec_log2_precond {x : Word} (h : x = 0#32) (s : State) :
    exec (.log2 x) s =
      .next { s with result := Config.freeResult s.draws, status := 0b01#2, draws := s.draws + 1 } :=
  evaluate_guarded_precond (fun _ => rfl) ((log2Error_iff x).2 h) s

end Sys2Proof.Machine
end

section
/-! SUPPORT. Proofs of the statements of spec/41_popcount_lz.md: POPCNT, LOG2 and CLZ (R70 to R72), their laws (R73) and the smeared word
(R74). -/

namespace Sys2Proof.Machine

/-- Settles O24: the sum of R70 is the size of the set of set bits. -/
theorem popcntCountsSetBits : Obligations.PopcntCountsSetBits := by
  refine fun x b s => ⟨by simp [decode], ?_⟩
  rw [exec_popcnt, onesCount_eq_card]
  rfl

/-- Settles O25: a nonzero word passes the check, and the search finds its highest set bit; zero fails the check. -/
theorem log2GivesHighestSetBit : Obligations.Log2GivesHighestSetBit := by
  refine fun x b s => ⟨by simp [decode], fun hx => ?_, fun hx => ⟨_, _, exec_log2_precond hx s⟩⟩
  obtain ⟨hset, habove⟩ := highestSetBit_spec hx
  exact ⟨highestSetBit x, exec_log2_ok hx s, highestSetBit_le x, hset, habove, highestSetBit_eq_log2 hx⟩

/-- Settles O26: for a nonzero word, `31 - n` is the highest set bit again. -/
theorem clzCountsLeadingZeros : Obligations.ClzCountsLeadingZeros := by
  refine fun x b s => ⟨by simp [decode], leadingZeros x, exec_clz x s, fun hx => if_pos hx, fun hx => ?_⟩
  have hle := highestSetBit_le x
  have hindex : 31 - leadingZeros x = highestSetBit x := by rw [leadingZeros_eq hx, Nat.sub_sub_self hle]
  rw [hindex]
  exact ⟨by rw [leadingZeros_eq hx]; exact Nat.sub_le 31 _, highestSetBit_spec hx⟩

/-- Settles O27, with `k` the highest set bit and `p` the population count. -/
theorem popcountLzLaws : Obligations.PopcountLzLaws := by
  refine fun x s => ⟨fun hx => ⟨highestSetBit x, highestSetBit_le x, exec_log2_ok hx s, ?_⟩,
    onesCount x, onesCount_le x, exec_popcnt x s, ?_, onesCount_eq_zero_iff x, onesCount_eq_one_iff x, fun k hk => ?_⟩
  · rw [exec_clz, leadingZeros_eq hx]
    rfl
  · rw [exec_popcnt, onesCount_not]
    rfl
  · rw [exec_log2_ok (ne_zero_of_toNat_eq_two_pow hk), highestSetBit_of_toNat_eq_two_pow hk]
    rfl

/-- Settles O28: the smeared word has one more one than the index of the highest set bit. -/
theorem smearGivesLog2AndClz : Obligations.SmearGivesLog2AndClz := by
  intro x hx
  rw [onesCount_smear hx, leadingZeros_eq hx]
  omega

end Sys2Proof.Machine
end

section
/-! SUPPORT. Facts that the proofs of spec/42_zigzag.md's statements share: the sign mask of each operation (R80, R81), the arithmetic form
of both (R82), and that they undo each other (R83). -/

namespace Sys2Proof.Machine

/-! ### How ZZENC and ZZDEC end -/

/-- ZZENC has no precondition (R80). -/
theorem exec_zzenc (n : Word) (s : State) : exec (.zzenc n) s = .next { s with result := zigzag n, status := 0b00#2 } :=
  evaluate_ok rfl

/-- ZZDEC has no precondition (R81). -/
theorem exec_zzdec (u : Word) (s : State) : exec (.zzdec u) s = .next { s with result := unzigzag u, status := 0b00#2 } :=
  evaluate_ok rfl

/-! ### The masks -/

/-- ZZENC's arithmetic shift is the mask that the sign bit selects (R80). -/
theorem sshiftRight_31_eq_mask (n : Word) : n.sshiftRight 31 = if n.getLsbD 31 then 0xFFFFFFFF#32 else 0#32 := by
  refine BitVec.eq_of_getLsbD_eq fun i hi => ?_
  rw [getLsbD_sshiftRight_31 n hi, getLsbD_unzigzag_mask _ hi]

/-- ZZDEC's mask is the negation of the lowest bit (R81). -/
theorem mask_eq_neg_and_one (u : Word) : (if u.getLsbD 0 then 0xFFFFFFFF#32 else 0#32) = -(u &&& 1#32) := by
  rw [BitVec.and_one_eq_setWidth_ofBool_getLsbD]
  cases u.getLsbD 0 <;> rfl

/-- A mask of all ones complements, and one of zeros keeps. -/
theorem xor_mask (c : Bool) (v : Word) : v ^^^ (if c then 0xFFFFFFFF#32 else 0#32) = if c then ~~~v else v := by
  cases c with
  | false => exact BitVec.xor_zero
  | true => exact BitVec.xor_allOnes

/-! ### The arithmetic form (R82) -/

/-- The sign bit marks the negative values. -/
theorem getLsbD_31_eq_decide (n : Word) : n.getLsbD 31 = decide (n.toInt < 0) := by
  rw [BitVec.getLsbD_last (w := 32), decide_eq_decide, BitVec.toInt_neg_iff]
  omega

/-- The lowest bit marks the odd codes. -/
theorem getLsbD_0_eq_decide (u : Word) : u.getLsbD 0 = decide (u.toNat % 2 = 1) := Nat.testBit_zero u.toNat

/-- The sign mask keeps the shifted word of a value that is not negative, and complements that of a negative one. -/
theorem zigzag_eq_shift_or_not (n : Word) : zigzag n = if n.toInt < 0 then ~~~(n <<< 1) else n <<< 1 := by
  rw [zigzag, sshiftRight_31_eq_mask, xor_mask, getLsbD_31_eq_decide]
  simp only [decide_eq_true_eq]

/-- The mask of R81 keeps the halved word of an even code, and complements that of an odd one. -/
theorem unzigzag_eq_shift_or_not (u : Word) : unzigzag u = if u.toNat % 2 = 1 then ~~~(u >>> 1) else u >>> 1 := by
  rw [unzigzag, xor_mask, getLsbD_0_eq_decide]
  simp only [decide_eq_true_eq]

/-- ZZENC doubles, modulo `2^32`, and the complement takes a negative value's double to `-2n - 1`. -/
theorem toNat_zigzag (n : Word) :
    ((zigzag n).toNat : Int) = if 0 ≤ n.toInt then 2 * n.toInt else -2 * n.toInt - 1 := by
  have hlt := n.isLt
  have hn := BitVec.toInt_eq_toNat_cond n
  have hdouble : (n <<< 1).toNat = n.toNat * 2 % 2 ^ 32 := by rw [BitVec.toNat_shiftLeft, Nat.shiftLeft_eq, pow_one]
  rw [zigzag_eq_shift_or_not]
  by_cases hneg : n.toInt < 0
  · rw [if_pos hneg, if_neg (not_le.2 hneg), BitVec.toNat_not]
    omega
  · rw [if_neg hneg, if_pos (not_lt.1 hneg)]
    omega

/-- ZZDEC halves, and the complement takes an odd code's half to the negative of the half rounded up. -/
theorem toInt_unzigzag (u : Word) :
    (unzigzag u).toInt = if u.toNat % 2 = 0 then (u.toNat : Int) / 2 else -(((u.toNat : Int) + 1) / 2) := by
  have hlt := u.isLt
  have hhalf : (u >>> 1).toNat = u.toNat / 2 := by rw [BitVec.toNat_ushiftRight, Nat.shiftRight_eq_div_pow, pow_one]
  rw [unzigzag_eq_shift_or_not, BitVec.toInt_eq_toNat_cond]
  by_cases hodd : u.toNat % 2 = 1
  · rw [if_pos hodd, if_neg (show ¬ u.toNat % 2 = 0 by omega), BitVec.toNat_not]
    omega
  · rw [if_neg hodd, if_pos (show u.toNat % 2 = 0 by omega)]
    omega

/-! ### Single bits of the results (R80, R81) -/

/-- The code's lowest bit is the sign. -/
theorem getLsbD_zigzag_0 (n : Word) : (zigzag n).getLsbD 0 = n.getLsbD 31 :=
  (getLsbD_zigzag n (by decide)).trans (Bool.false_xor _)

/-- The decoded word's sign is the code's lowest bit. -/
theorem getLsbD_unzigzag_31 (u : Word) : (unzigzag u).getLsbD 31 = u.getLsbD 0 := by
  rw [getLsbD_unzigzag u (by decide), BitVec.getLsbD_of_ge u (31 + 1) le_rfl, Bool.false_xor]

/-- Above the lowest bit the code is the value shifted up, under the sign mask. -/
theorem getLsbD_zigzag_succ (n : Word) {i : Nat} (h : i + 1 < 32) :
    (zigzag n).getLsbD (i + 1) = (n.getLsbD i ^^ n.getLsbD 31) := by
  rw [getLsbD_zigzag n h, decide_eq_true (Nat.le_add_left 1 i), Bool.true_and, Nat.add_sub_cancel]

/-! ### The two are inverse (R83) -/

/-- Bit `i` of the decoded word is bit `i + 1` of the code, freed of the sign that bit 0 of the code holds. -/
theorem unzigzag_zigzag (n : Word) : unzigzag (zigzag n) = n := by
  refine BitVec.eq_of_getLsbD_eq fun i hi => ?_
  by_cases htop : i = 31
  · rw [htop, getLsbD_unzigzag_31, getLsbD_zigzag_0]
  · rw [getLsbD_unzigzag _ hi, getLsbD_zigzag_0, getLsbD_zigzag_succ n (by omega), Bool.xor_assoc, Bool.xor_self,
      Bool.xor_false]

/-- Bit `i` of the code is bit `i - 1` of the decoded word, given back the sign that bit 31 of it holds. -/
theorem zigzag_unzigzag (u : Word) : zigzag (unzigzag u) = u := by
  refine BitVec.eq_of_getLsbD_eq fun i hi => ?_
  cases i with
  | zero => rw [getLsbD_zigzag_0, getLsbD_unzigzag_31]
  | succ j =>
    rw [getLsbD_zigzag_succ _ hi, getLsbD_unzigzag_31, getLsbD_unzigzag u (by omega), Bool.xor_assoc, Bool.xor_self,
      Bool.xor_false]

end Sys2Proof.Machine
end

section
/-! SUPPORT. Proofs of the statements of spec/42_zigzag.md: ZZENC and ZZDEC (R80, R81), their arithmetic form (R82) and the bijection
laws (R83). -/

namespace Sys2Proof.Machine

/-- Settles O29: the arithmetic shift is the sign mask, and bit `i` of the left shift is bit `i - 1`. -/
theorem zzencResultBits : Obligations.ZzencResultBits := by
  refine fun n b s => ⟨by simp [decode], zigzag n, exec_zzenc n s, ?_, getLsbD_zigzag_0 n, fun i hi hi31 => ?_⟩
  · rw [zigzag, sshiftRight_31_eq_mask]
  · obtain ⟨j, rfl⟩ := Nat.exists_eq_add_of_le' hi
    exact getLsbD_zigzag_succ n (by omega)

/-- Settles O30: the mask is the negated lowest bit, and bit `i` of the right shift is bit `i + 1`. -/
theorem zzdecResultBits : Obligations.ZzdecResultBits := by
  refine fun u b s => ⟨by simp [decode], unzigzag u, exec_zzdec u s, ?_, getLsbD_unzigzag_31 u,
    fun i hi => getLsbD_unzigzag u (by omega)⟩
  rw [unzigzag, mask_eq_neg_and_one]

/-- Settles O31, by the sign of `n` and the parity of `u`; the bound follows from the two forms of the code. -/
theorem zigzagArithmeticForm : Obligations.ZigzagArithmeticForm := by
  refine ⟨fun n s => ⟨zigzag n, exec_zzenc n s, toNat_zigzag n, ?_⟩, fun u s => ⟨unzigzag u, exec_zzdec u s, toInt_unzigzag u⟩⟩
  have hcode := toNat_zigzag n
  split_ifs at hcode <;> omega

/-- Settles O32: the two functions undo each other, whatever states they are evaluated from. -/
theorem zigzagIsABijection : Obligations.ZigzagIsABijection := by
  refine ⟨fun n s t => ⟨zigzag n, exec_zzenc n s, ?_⟩, fun u s t => ⟨unzigzag u, exec_zzdec u s, ?_⟩⟩
  · rw [exec_zzdec, unzigzag_zigzag]
  · rw [exec_zzenc, zigzag_unzigzag]

end Sys2Proof.Machine
end

section
/-! SUPPORT. Facts that the proofs of spec/43_seq_compare.md's statements share: what SEQGT and SEQLT read of an operand, the two forms of
R90's comparison, its exchange law (R94), and its value on counters (R93, R95). -/

namespace Sys2Proof

/-- The comparator ignores the upper half of an operand (R44). -/
@[simp] theorem low16_append (h s : SeqNum) : low16 (h ++ s) = s := by
  refine BitVec.eq_of_getLsbD_eq fun i hi => ?_
  rw [low16, BitVec.getLsbD_extractLsb', Nat.zero_add, BitVec.getLsbD_append, if_pos hi, decide_eq_true hi, Bool.true_and]

end Sys2Proof

namespace Sys2Proof.Machine

/-! ### The two forms of the comparison (R90) -/

/-- R90's formula. -/
theorem seqGt_iff (s1 s2 : SeqNum) :
    seqGt s1 s2 = true ↔ (s1.toNat > s2.toNat ∧ s1.toNat - s2.toNat ≤ 32768) ∨
      (s1.toNat < s2.toNat ∧ s2.toNat - s1.toNat > 32768) := by
  simp only [seqGt, Bool.or_eq_true, Bool.and_eq_true, decide_eq_true_eq]
  rfl

/-- R90's form by the difference modulo 65536: where `s1` is the smaller value, the difference wraps round once. -/
theorem seqGt_iff_sub (s1 s2 : SeqNum) :
    seqGt s1 s2 = true ↔ (1 ≤ (s1 - s2).toNat ∧ (s1 - s2).toNat ≤ 32767) ∨
      ((s1 - s2).toNat = 32768 ∧ s1.toNat > s2.toNat) := by
  have hlt1 := s1.isLt
  have hlt2 := s2.isLt
  rw [seqGt_iff]
  by_cases hle : s2.toNat ≤ s1.toNat
  · have hsub : (s1 - s2).toNat = s1.toNat - s2.toNat := BitVec.toNat_sub_of_le hle
    omega
  · have hsub : (s1 - s2).toNat = 2 ^ 16 - (s2.toNat - s1.toNat) := BitVec.toNat_sub_of_lt (not_le.1 hle)
    omega

/-! ### The order laws (R94) -/

@[simp] theorem seqGt_self (s : SeqNum) : seqGt s s = false := by
  rw [Bool.eq_false_iff, Ne, seqGt_iff]
  omega

/-- Of two distinct values exactly one is the greater. -/
theorem seqGt_exchange {s1 s2 : SeqNum} (h : s1 ≠ s2) : seqGt s2 s1 = !seqGt s1 s2 := by
  have hne : s1.toNat ≠ s2.toNat := mt BitVec.eq_of_toNat_eq h
  rw [Bool.eq_not, Ne, Bool.eq_iff_iff, seqGt_iff, seqGt_iff]
  omega

/-- Two values are never each greater than the other. -/
theorem seqGt_asymm {s1 s2 : SeqNum} (h : seqGt s1 s2 = true) : seqGt s2 s1 = false := by
  have hne : s1 ≠ s2 := by
    rintro rfl
    rw [seqGt_self] at h
    cases h
  rw [seqGt_exchange hne, h]
  rfl

/-! ### The comparison on counters (R93, R95) -/

/-- A counter that is ahead by less than half the domain is the greater. -/
theorem seqGt_ofNat_of_ahead {n1 n2 : Nat} (hlt : n2 < n1) (hnear : n1 ≤ n2 + 32767) :
    seqGt (BitVec.ofNat 16 n1) (BitVec.ofNat 16 n2) = true := by
  obtain ⟨k, rfl⟩ := Nat.exists_eq_add_of_le hlt.le
  have hsub : BitVec.ofNat 16 (n2 + k) - BitVec.ofNat 16 n2 = BitVec.ofNat 16 k := by
    rw [BitVec.ofNat_add, BitVec.add_comm, BitVec.add_sub_cancel]
  have hk : (BitVec.ofNat 16 k).toNat = k := Nat.mod_eq_of_lt (by omega)
  rw [seqGt_iff_sub, hsub, hk]
  omega

/-- Counters fewer than 32768 apart are compared as they truly are, by which of them is ahead. -/
theorem seqGt_ofNat_iff {n1 n2 : Nat} (h1 : n1 ≤ n2 + 32767) (h2 : n2 ≤ n1 + 32767) :
    seqGt (BitVec.ofNat 16 n1) (BitVec.ofNat 16 n2) = true ↔ n1 > n2 := by
  rcases lt_trichotomy n1 n2 with hlt | rfl | hgt
  · simp [seqGt_asymm (seqGt_ofNat_of_ahead hlt h2), hlt.le]
  · simp
  · exact iff_of_true (seqGt_ofNat_of_ahead hgt h1) hgt

/-- Exactly half the domain apart, the plain difference is still small enough. -/
theorem seqGt_boundary {v : Nat} (hv : v ≤ 32767) :
    seqGt (BitVec.ofNat 16 (v + 32768)) (BitVec.ofNat 16 v) = true := by
  have hlow : (BitVec.ofNat 16 v).toNat = v := Nat.mod_eq_of_lt (by omega)
  have hhigh : (BitVec.ofNat 16 (v + 32768)).toNat = v + 32768 := Nat.mod_eq_of_lt (by omega)
  rw [seqGt_iff, hlow, hhigh]
  omega

/-! ### How SEQGT and SEQLT end -/

/-- SEQGT has no precondition (R91). -/
theorem exec_seqgt (s1 s2 : SeqNum) (s : State) :
    exec (.seqgt s1 s2) s = .next { s with result := boolResult (seqGt s1 s2), status := 0b00#2 } :=
  evaluate_ok rfl

/-- SEQLT has no precondition, and exchanges its operands (R92). -/
theorem exec_seqlt (s1 s2 : SeqNum) (s : State) :
    exec (.seqlt s1 s2) s = .next { s with result := boolResult (seqGt s2 s1), status := 0b00#2 } :=
  evaluate_ok rfl

/-- A boolean result in the terms of what the boolean decides. -/
theorem boolResult_eq_ite {c : Bool} {p : Prop} [Decidable p] (h : c = true ↔ p) :
    boolResult c = if p then 1#32 else 0#32 :=
  if_congr h rfl rfl

end Sys2Proof.Machine
end

section
/-! SUPPORT. Proofs of the statements of spec/43_seq_compare.md: the comparison's two forms (R90), SEQGT and SEQLT (R91, R92), the boundary
rule (R93), the order laws (R94) and elapsed order (R95). -/

namespace Sys2Proof.Machine

/-- Settles O35: the formula is the definition, and the form by differences follows as `s1` or `s2` is the larger. -/
theorem seqgtModularForm : Obligations.SeqgtModularForm :=
  fun s1 s2 => ⟨seqGt_iff s1 s2, seqGt_iff_sub s1 s2⟩

/-- Settles O37: SEQLT of distinct values gives the complement of what SEQGT gives. -/
theorem seqgtOrderLaws : Obligations.SeqgtOrderLaws := by
  refine ⟨seqGt_self, fun s1 s2 s t s' t' hne hgt hlt => ?_, by decide⟩
  rw [exec_seqgt] at hgt
  rw [exec_seqlt, seqGt_exchange hne] at hlt
  cases hgt
  cases hlt
  cases seqGt s1 s2
  · exact .inr ⟨rfl, rfl⟩
  · exact .inl ⟨rfl, rfl⟩

/-- Settles O38: the comparison of the low halves decides which counter is ahead. -/
theorem seqgtDecidesElapsedOrder : Obligations.SeqgtDecidesElapsedOrder := by
  intro n1 n2 s h1 h2
  rw [exec_seqgt, boolResult_eq_ite (seqGt_ofNat_iff h1 h2)]

/-- Settles O33: the decoder reads the lower halves, and the result is the formula of R90. -/
theorem seqgtFollowsFormula : Obligations.SeqgtFollowsFormula := by
  refine ⟨fun h1 h2 s1 s2 => by simp [decode], fun s1 s2 s => ?_⟩
  rw [exec_seqgt, boolResult_eq_ite (seqGt_iff s1 s2)]

/-- Settles O34: the decoder reads the lower halves, and the result is the formula of R90 with its operands exchanged. -/
theorem seqltFollowsFormula : Obligations.SeqltFollowsFormula := by
  refine ⟨fun h1 h2 s1 s2 => by simp [decode], fun s1 s2 s => ?_⟩
  rw [exec_seqlt, boolResult_eq_ite (seqGt_iff s2 s1)]

/-- Settles O36: the larger value is the greater, so the smaller is not. -/
theorem seqgtBoundaryRule : Obligations.SeqgtBoundaryRule := by
  refine fun v s hv => ⟨?_, ?_⟩
  · rw [exec_seqgt, seqGt_boundary hv]
    rfl
  · rw [exec_seqgt, seqGt_asymm (seqGt_boundary hv)]
    rfl

end Sys2Proof.Machine
end

section
/-! SUPPORT. Proofs of the statements of spec/60_exceptions.md: what raises PRECOND and ILLEGAL (R100 to R102), and that nothing stops the
block (R104, R105). -/

namespace Sys2Proof.Machine

/-! ### The status codes that `eval` gives -/

/-- The op values by what their operations can report: three have a precondition of their own, six have none (R101), and the rest are
reserved (R46). -/
theorem op_kinds (op : OpBits) :
    op = 0x0#4 ∨ op = 0x1#4 ∨ op = 0x3#4 ∨ op ∈ [0x2#4, 0x4#4, 0x5#4, 0x6#4, 0x7#4, 0x8#4] ∨ 0x9 ≤ op.toNat := by
  revert op; decide

/-- Behind a precondition, PRECOND tells that the check failed, and ILLEGAL is never raised (R101). -/
theorem guarded_status (c : Bool) (d v : Word) :
    ((if c then raise .precond d else ok v).status = 0b01#2 ↔ c = true) ∧
      (if c then raise .precond d else ok v).status ≠ 0b10#2 := by
  cases c <;> simp

/-- An operation without a precondition is OK on every input (R101). -/
theorem eval_status_of_unguarded {op : OpBits} (h : op ∈ [0x2#4, 0x4#4, 0x5#4, 0x6#4, 0x7#4, 0x8#4]) (a b d : Word) :
    (eval op a b d).status = 0b00#2 := by
  fin_cases h <;> rfl

/-- A reserved op reports ILLEGAL on every input (R102). -/
theorem eval_status_of_reserved {op : OpBits} (h : 0x9 ≤ op.toNat) (a b d : Word) : (eval op a b d).status = 0b10#2 := by
  rcases op_cases op with rfl | rfl | rfl | rfl | rfl | rfl | rfl | rfl | rfl | hreserved
  iterate 9 exact absurd h (by decide)
  rcases hreserved with rfl | rfl | rfl | rfl | rfl | rfl | rfl <;> rfl

/-- The causes of PRECOND at the block's inputs: the failed check of BWU, of BWS or of LOG2 (R101). -/
theorem eval_status_precond_iff (op : OpBits) (a b d : Word) :
    (eval op a b d).status = 0b01#2 ↔
      (op = 0x0#4 ∧ a.toNat > b.toNat) ∨ (op = 0x1#4 ∧ a.toInt > b.toInt) ∨ (op = 0x3#4 ∧ a = 0#32) := by
  rcases op_kinds op with rfl | rfl | rfl | hunguarded | hreserved
  · exact (guarded_status _ d _).1.trans ((bwuRangeError_iff a b).trans (by simp))
  · exact (guarded_status _ d _).1.trans ((bwsRangeError_iff a b).trans (by simp))
  · exact (guarded_status _ d _).1.trans ((log2Error_iff a).trans (by simp))
  · rw [eval_status_of_unguarded hunguarded]
    fin_cases hunguarded <;> simp
  · rw [eval_status_of_reserved hreserved]
    refine iff_of_false (by decide) ?_
    rintro (⟨rfl, -⟩ | ⟨rfl, -⟩ | ⟨rfl, -⟩) <;> exact absurd hreserved (by decide)

/-- ILLEGAL is reported on exactly the reserved op values (R102). -/
theorem eval_status_illegal_iff (op : OpBits) (a b d : Word) : (eval op a b d).status = 0b10#2 ↔ 0x9 ≤ op.toNat := by
  refine ⟨fun hillegal => ?_, fun hreserved => eval_status_of_reserved hreserved a b d⟩
  rcases op_kinds op with rfl | rfl | rfl | hunguarded | hreserved
  · exact absurd hillegal (guarded_status _ d _).2
  · exact absurd hillegal (guarded_status _ d _).2
  · exact absurd hillegal (guarded_status _ d _).2
  · rw [eval_status_of_unguarded hunguarded] at hillegal
    exact absurd hillegal (by decide)
  · exact hreserved

/-- A status code is `2'b11` or one of the three that are driven (R18, R100). -/
theorem status_cases_of_ne_three : ∀ {st : StatusBits}, st ≠ 0b11#2 → st = 0b00#2 ∨ st = 0b01#2 ∨ st = 0b10#2 := by
  decide

/-! ### The statements -/

/-- Settles O10: a step drives an output of `eval`, whose status names its cause and whose result beside a status other than OK is the
draw. -/
theorem statusReportsExactlyTheCauses : Obligations.StatusReportsExactlyTheCauses := by
  intro s s' hstep
  rw [step_eq_evaluate, evaluate_eq_next_iff] at hstep
  subst hstep
  have heval := eval_okOrRaise s.op s.a s.b
  refine ⟨eval_status_precond_iff _ _ _ _, eval_status_illegal_iff _ _ _ _,
    status_cases_of_ne_three (heval.status_ne_three _), fun hstatus d => ?_⟩
  obtain ⟨hsame, -, hdraw⟩ := heval.draw_only_as_unspecified_result d (Config.freeResult s.draws)
  exact hdraw (hsame.trans_ne hstatus)

/-- Settles O6: the words before the last one lead to a state, from which the last completes too, and its evaluation leaves it on the
ports. -/
theorem everySequenceCompletes : Obligations.EverySequenceCompletes := by
  intro before t s
  obtain ⟨m, -, hlast⟩ := applyWords_append_one t before s
  obtain ⟨s', happly⟩ := applyWord_completes t m
  refine ⟨s', hlast.trans happly, ?_⟩
  rw [applyWord_eq] at happly
  obtain ⟨hop, ha, hb, -⟩ := execChangesOnlyOutputs _ _ _ happly
  rw [hop, ha, hb]
  exact pack_fields t

end Sys2Proof.Machine
end

section
/-! SUPPORT. Proofs of the statements of spec/70_reset_and_hazards.md: what a driver reads from the outputs (R122), and that no evaluation
depends on those before it (R126). -/

namespace Sys2Proof.Machine

/-! ### The driver's reading -/

/-- A driver's reading by the status code on the port (R122, D13). -/
theorem reading_cases (s : State) :
    (s.status = 0b00#2 ∧ s.reading = .value s.result) ∨ (s.status = 0b01#2 ∧ s.reading = .precond) ∨
      (s.status = 0b10#2 ∧ s.reading = .illegal) ∨ (s.status = 0b11#2 ∧ s.reading = .leftTheSpec) := by
  by_cases hthree : s.status = 0b11#2
  · exact .inr (.inr (.inr ⟨hthree, by rw [State.reading, hthree]; rfl⟩))
  · obtain hok | hprecond | hillegal := status_cases_of_ne_three hthree
    · exact .inl ⟨hok, by rw [State.reading, hok]; rfl⟩
    · exact .inr (.inl ⟨hprecond, by rw [State.reading, hprecond]; rfl⟩)
    · exact .inr (.inr (.inl ⟨hillegal, by rw [State.reading, hillegal]; rfl⟩))

/-- A driver takes a value from `result` exactly beside an OK status (R122). -/
theorem reading_eq_value_iff (s : State) (v : Word) : s.reading = .value v ↔ s.status = 0b00#2 ∧ s.result = v := by
  obtain ⟨hstatus, hreading⟩ | ⟨hstatus, hreading⟩ | ⟨hstatus, hreading⟩ | ⟨hstatus, hreading⟩ := reading_cases s <;>
    simp [hstatus, hreading]

/-- A driver refuses exactly the code that is never driven (D13). -/
theorem reading_eq_leftTheSpec_iff (s : State) : s.reading = .leftTheSpec ↔ s.status = 0b11#2 := by
  obtain ⟨hstatus, hreading⟩ | ⟨hstatus, hreading⟩ | ⟨hstatus, hreading⟩ | ⟨hstatus, hreading⟩ := reading_cases s <;>
    simp [hstatus, hreading]

/-! ### One instruction from two states -/

/-- What an instruction drives does not depend on the state it is evaluated in, but for an unspecified result (R20, R126). -/
theorem exec_outputs_agree {i : Instr} {s₁ s₂ s₁' s₂' : State} (h₁ : exec i s₁ = .next s₁') (h₂ : exec i s₂ = .next s₂') :
    s₁'.status = s₂'.status ∧ (s₁'.status = 0b00#2 → s₁'.result = s₂'.result) := by
  obtain ⟨v, hok⟩ | ⟨e, he, hraise⟩ := exec_cases i
  · cases (hok s₁).symm.trans h₁
    cases (hok s₂).symm.trans h₂
    exact ⟨rfl, fun _ => rfl⟩
  · cases (hraise s₁).symm.trans h₁
    cases (hraise s₂).symm.trans h₂
    exact ⟨rfl, fun hstatus => absurd ((statusCode_eq_zero_iff e).1 hstatus) he⟩

/-! ### The statements -/

/-- Settles O11: a step meets Inv, so its status is never the code that the driver refuses (O2). -/
theorem driverReadsValueOnlyWhenOk : Obligations.DriverReadsValueOnlyWhenOk := by
  intro s s' hstep
  have hlegal : StatusLegal s' := (everyStepKeepsInvariant s s' hstep).statusLegal
  exact ⟨mt (reading_eq_leftTheSpec_iff s').1 hlegal, reading_eq_value_iff s'⟩

/-- Settles O5: whatever the words before it lead to, the last word decodes to one instruction. -/
theorem outputsIgnoreHistory : Obligations.OutputsIgnoreHistory := by
  intro before₁ before₂ t s₁ s₂ s₁' s₂' hrun₁ hrun₂
  obtain ⟨m₁, -, hlast₁⟩ := applyWords_append_one t before₁ s₁
  obtain ⟨m₂, -, hlast₂⟩ := applyWords_append_one t before₂ s₂
  rw [hlast₁, applyWord_eq] at hrun₁
  rw [hlast₂, applyWord_eq] at hrun₂
  exact exec_outputs_agree hrun₁ hrun₂

end Sys2Proof.Machine
end
